-- ==== Sys2Proof/Word.lean ====
section
/-!
DEFINITION. The bit-vector types of B62CORE: the words, fields and serialised words the spec treats as bits.
-/

namespace Sys2Proof

/-- A word field: 64 bits, unsigned, every value legal (`spec/30_encoding.md` R49). -/
abbrev Word := BitVec 64

/-- A digit field: 6 bits. The values 0 to 61 are digits, 62 and 63 are not (R45). -/
abbrev DigitField := BitVec 6

/-- A quotient field: 5 bits. The values 0 to 21 are quotients, 22 to 31 are not (R47). -/
abbrev QuotField := BitVec 5

/-- A 65-bit payload of an operation word or a result word (R50). -/
abbrev Payload := BitVec 65

/-- The 67-bit operation word: unit code in bits 66 and 65, operand payload below (R52). -/
abbrev OpWord := BitVec 67

/-- The 67-bit result word: error field in bits 66 and 65, result payload below (R53). -/
abbrev ResultWord := BitVec 67

end Sys2Proof
end

