-- ==== Sys2Proof/Config.lean ====
section
/-!
DEFINITION. What the spec fixes once for the block (the parameters of R7, R152), and the free values: what a data
output holds where a rule declares it `unspecified(N)` (R11, `spec/93_implementation_defined.md` U1 to U4).
-/

namespace Sys2Proof.Config

/-- `BASE` of R7: the radix of every digit. -/
abbrev base : Nat := 62

/-- `NDIG` of R7: the digits the splitter peels from one word. -/
abbrev ndig : Nat := 10

/-- `QRADIX` of R7: the radix of the mixed-base composite. -/
abbrev qradix : Nat := 22

/-- `NOVF` of R7: the base-62 digits that carry the composite. -/
abbrev novf : Nat := 3

/-- `2 ^ WORDW` of R7: the first number a 64-bit word does not hold. -/
abbrev wordLimit : Nat := 2 ^ 64

/-- `CMAX + 1` of R7, that is `22 ^ 4`: the first composite that is not one of four in-range quotients. -/
abbrev compositeLimit : Nat := 234256

/-- The powers of 22 the unpacker divides by, in the order it uses them (R100). -/
abbrev powersDown : List Nat := [10648, 484, 22, 1]

/-- FREE VALUE (log entry 1): what `c_w` holds at an evaluation whose error code leaves it unspecified (U1, U3).
It has no body, so nothing can be proved of its values. Its arguments are the number of the draw and the
operation word, so that neither two draws nor two operands are known to agree. The form is a DESIGN CHOICE; unsafe
only for a claim that compares two runs (see the entry). -/
opaque freeComposeWord : Nat → BitVec 67 → BitVec 64

/-- FREE VALUE (log entry 1): what `p_e` holds when PACK raises `E_QUOT` (U2); any of the 18-bit patterns. DESIGN CHOICE
of the form, unsafe as above. -/
opaque freePackDigits : Nat → BitVec 67 → BitVec 18

/-- FREE VALUE (log entry 1): what `u_q` holds when UNPACK raises `E_DIGIT` (U4); any of the 20-bit patterns. DESIGN
CHOICE of the form, unsafe as above. -/
opaque freeUnpackQuots : Nat → BitVec 67 → BitVec 20

end Sys2Proof.Config
end

