-- ==== Sys2Proof/Syntax.lean ====
section
/-!
DEFINITION. The four functional units, the groups of fields their ports carry, and the four operations: one
constructor of `Instr` for each row of `spec/opcode_table.json` (R2, R61).
-/

namespace Sys2Proof

/-- The four functional units in the source's order (R2). -/
inductive CoreUnit where
  /-- The Word Digit-Splitter, port group S. -/
  | splitter
  /-- The Word Digit-Composer, port group C. -/
  | composer
  /-- The Overflow Packer, port group P. -/
  | packer
  /-- The Overflow Unpacker, port group U. -/
  | unpacker
  deriving DecidableEq, Repr

/-- A digit group of ten fields, `d[0]` (weight 1) first (R13, R46). -/
structure Digits10 where
  d0 : DigitField
  d1 : DigitField
  d2 : DigitField
  d3 : DigitField
  d4 : DigitField
  d5 : DigitField
  d6 : DigitField
  d7 : DigitField
  d8 : DigitField
  d9 : DigitField
  deriving DecidableEq, Repr

/-- A digit group of three fields, `e[0]` (weight 1) first (R13, R46). -/
structure Digits3 where
  e0 : DigitField
  e1 : DigitField
  e2 : DigitField
  deriving DecidableEq, Repr

/-- A quotient group: `q[i]` has weight `22 ^ i` and belongs to word `w[i]` (R32, R48). -/
structure Quots4 where
  q0 : QuotField
  q1 : QuotField
  q2 : QuotField
  q3 : QuotField
  deriving DecidableEq, Repr

/-- One operation with its operands: one evaluation of one unit (R19, R61). The operands are raw fields: every bit
pattern the ports can carry is an operand (R54), whether well-formed or not. -/
inductive Instr where
  /-- SPLIT: the word on `s_w` (R70). -/
  | split (w : Word)
  /-- COMPOSE: the quotient on `c_q` and the ten digits on `c_d` (R80). -/
  | compose (q : QuotField) (d : Digits10)
  /-- PACK: the four quotients on `p_q` (R90). -/
  | pack (q : Quots4)
  /-- UNPACK: the three digits on `u_e` (R100). -/
  | unpack (e : Digits3)
  deriving DecidableEq, Repr

end Sys2Proof
end

