-- ==== Sys2Proof/Decode.lean ====
section
/-!
DEFINITION. The bit layouts of `spec/30_encoding.md`: digit and quotient groups (R46, R48), the four payload formats
(R50), the operation word with its total decoder (R52, R54, R55) and, after it, the encoder.
-/

namespace Sys2Proof

/-! ### Groups of fields -/

/-- Ten digit fields as a 60-bit group: digit `k` at bits `[6k+5:6k]` (R46). -/
def Digits10.toBits (d : Digits10) : BitVec 60 :=
  d.d9 ++ d.d8 ++ d.d7 ++ d.d6 ++ d.d5 ++ d.d4 ++ d.d3 ++ d.d2 ++ d.d1 ++ d.d0

/-- The ten digit fields of a 60-bit group (R46). -/
def Digits10.ofBits (b : BitVec 60) : Digits10 where
  d0 := b.extractLsb' 0 6
  d1 := b.extractLsb' 6 6
  d2 := b.extractLsb' 12 6
  d3 := b.extractLsb' 18 6
  d4 := b.extractLsb' 24 6
  d5 := b.extractLsb' 30 6
  d6 := b.extractLsb' 36 6
  d7 := b.extractLsb' 42 6
  d8 := b.extractLsb' 48 6
  d9 := b.extractLsb' 54 6

/-- Three digit fields as an 18-bit group (R46). -/
def Digits3.toBits (e : Digits3) : BitVec 18 := e.e2 ++ e.e1 ++ e.e0

/-- The three digit fields of an 18-bit group (R46). -/
def Digits3.ofBits (b : BitVec 18) : Digits3 where
  e0 := b.extractLsb' 0 6
  e1 := b.extractLsb' 6 6
  e2 := b.extractLsb' 12 6

/-- Four quotient fields as a 20-bit group: quotient `i` at bits `[5i+4:5i]` (R48). -/
def Quots4.toBits (q : Quots4) : BitVec 20 := q.q3 ++ q.q2 ++ q.q1 ++ q.q0

/-- The four quotient fields of a 20-bit group (R48). -/
def Quots4.ofBits (b : BitVec 20) : Quots4 where
  q0 := b.extractLsb' 0 5
  q1 := b.extractLsb' 5 5
  q2 := b.extractLsb' 10 5
  q3 := b.extractLsb' 15 5

/-! ### The four payload formats (R50); padding is written as 0 -/

/-- W64: the word in bits 63 to 0, bit 64 padding. -/
def payloadW64 (w : Word) : Payload := 0#1 ++ w

/-- QD65: the quotient in bits 64 to 60, the ten digits below, no padding. -/
def payloadQD65 (q : QuotField) (d : Digits10) : Payload := q ++ d.toBits

/-- Q20: the quotient group in bits 19 to 0, bits 64 to 20 padding. -/
def payloadQ20 (q : Quots4) : Payload := 0#45 ++ q.toBits

/-- D18: the three digits in bits 17 to 0, bits 64 to 18 padding. -/
def payloadD18 (e : Digits3) : Payload := 0#47 ++ e.toBits

/-! ### The operation word -/

/-- The unit code of R52. -/
def CoreUnit.code : CoreUnit → BitVec 2
  | .splitter => 0#2
  | .composer => 1#2
  | .packer => 2#2
  | .unpacker => 3#2

/-- The unit a code denotes: all four codes are assigned (R54). -/
def CoreUnit.ofCode (c : BitVec 2) : CoreUnit :=
  if c = 0#2 then .splitter else if c = 1#2 then .composer else if c = 2#2 then .packer else .unpacker

/-- The operation of unit `u` with the operand a payload holds in that operation's operand format; padding bits are
not read (R51, R54, R55). -/
def operandOf (u : CoreUnit) (p : Payload) : Instr :=
  match u with
  | .splitter => .split (p.extractLsb' 0 64)
  | .composer => .compose (p.extractLsb' 60 5) (Digits10.ofBits (p.extractLsb' 0 60))
  | .packer => .pack (Quots4.ofBits (p.extractLsb' 0 20))
  | .unpacker => .unpack (Digits3.ofBits (p.extractLsb' 0 18))

/-- Decoding an operation word is total: each of the `2^67` words denotes exactly one operation (R54). -/
def decodeWord (w : OpWord) : Instr :=
  operandOf (CoreUnit.ofCode (w.extractLsb' 65 2)) (w.extractLsb' 0 65)

/-- Why a number is not an operation word. -/
inductive DecodeReject where
  /-- The number needs more than 67 bits: "bit 67 does not exist" (R52). Raised by `decode`; safe. -/
  | bit67DoesNotExist
  deriving DecidableEq, Repr

/-- Decode any number written as an operation word. The width is fixed (R52, R58), so a longer number is rejected by
name (log entry 11, DESIGN CHOICE, safe); every number of 67 bits is accepted. -/
def decode (n : Nat) : Except DecodeReject Instr :=
  if n < 2 ^ 67 then .ok (decodeWord (BitVec.ofNat 67 n)) else .error .bit67DoesNotExist

/-- The instruction the decoder reads from a word numbered as `spec/opcode_table.json` numbers its bits: bit 0 of the
operation word is bit 0 of the table, and bits from `nbits` up are 0. The block moves no bytes (R31), so there is no
byte order to undo (log entry 11, DESIGN CHOICE, safe). -/
def decodeTableWord (nbits w : Nat) : Option Instr :=
  match decode (w % 2 ^ nbits) with
  | .ok i => some i
  | .error _ => none

/-! ### The encoder -/

/-- The unit an operation is an evaluation of (R51). -/
def Instr.coreUnit : Instr → CoreUnit
  | .split _ => .splitter
  | .compose _ _ => .composer
  | .pack _ => .packer
  | .unpack _ => .unpacker

/-- The operand payload in the operation's operand format (R51). -/
def Instr.payload : Instr → Payload
  | .split w => payloadW64 w
  | .compose q d => payloadQD65 q d
  | .pack q => payloadQ20 q
  | .unpack e => payloadD18 e

/-- The operation word of an operation: unit code, then operand payload with its padding 0 (R52, R54). -/
def encode (i : Instr) : OpWord := i.coreUnit.code ++ i.payload

end Sys2Proof
end

