-- ==== Sys2Proof/Machine/State.lean ====
section
/-!
DEFINITION. The state of the model. The block itself holds NO state (R20 to R25, R29): every field below belongs to
the host around it (R160, R161) or, for `draws`, to the model. The block's ports are here as the values the host
drives on them (R26); outputs are a function of those values and are stored nowhere but in the host's record.
-/

namespace Sys2Proof.Machine

/-- The error codes of R131. -/
inductive ErrCode where
  /-- Code 0, `NONE`. -/
  | none
  /-- Code 1, `E_DIGIT`: some digit field of the operand holds 62 or 63. -/
  | eDigit
  /-- Code 2, `E_QUOT`: some quotient field of the operand holds 22 to 31. -/
  | eQuot
  /-- Code 3, `E_RANGE`: well-formed operand, value outside the range of the result. -/
  | eRange
  deriving DecidableEq, Repr

/-- What stands on one input port of `n` bits (R29, R150, R153). -/
inductive PortDrive (n : Nat) where
  /-- The host does not drive the port. -/
  | undriven
  /-- The host is changing the port: the value may be the old one, the new one or neither. -/
  | changing
  /-- The host drives the value and holds it. -/
  | held (v : BitVec n)
  deriving DecidableEq, Repr

/-- The five input ports of the block, under the spec's names (R26). No two units share a port (R28). -/
structure Inputs where
  s_w : PortDrive 64
  c_q : PortDrive 5
  c_d : PortDrive 60
  p_q : PortDrive 20
  u_e : PortDrive 18
  deriving DecidableEq, Repr

/-- The names of the input ports (R26). -/
inductive InPort where
  | s_w
  | c_q
  | c_d
  | p_q
  | u_e
  deriving DecidableEq, Repr

/-- A bit pattern for one input port (R26). -/
inductive PortValue where
  | s_w (v : BitVec 64)
  | c_q (v : BitVec 5)
  | c_d (v : BitVec 60)
  | p_q (v : BitVec 20)
  | u_e (v : BitVec 18)
  deriving DecidableEq, Repr

/-- What the host can do to the block, exhaustively (R161), and the command port of R52 (d). One move at a time: DEDUCED
from R160 (log entry 8), safe. -/
inductive HostMove where
  /-- Drive a port with any bit pattern and hold it: (a) and (b) of R161. -/
  | drive (v : PortValue)
  /-- Begin to change a port, which ends the operation on it: (d) of R161. -/
  | change (p : InPort)
  /-- Stop driving a port (R29, R150). -/
  | release (p : InPort)
  /-- Sample the data and error outputs of a unit: (c) of R161. -/
  | sample (u : CoreUnit)
  /-- One whole operation given as its operation word: present the operand, hold it, sample (R52, R153). DESIGN CHOICE
  (log entry 2): safe, since it abbreviates moves of R161 in the order R153 asks for. -/
  | command (opw : OpWord)
  deriving DecidableEq, Repr

/-- What a unit's output ports show at one sample (R26), data and error together. -/
inductive Outputs where
  /-- Ports `s_q` and `s_d`; the splitter has no error port (R27). -/
  | splitter (s_q : QuotField) (s_d : Digits10)
  /-- Ports `c_w` and `c_err`. -/
  | composer (c_w : Word) (c_err : ErrCode)
  /-- Ports `p_e` and `p_err`. -/
  | packer (p_e : Digits3) (p_err : ErrCode)
  /-- Ports `u_q` and `u_err`. -/
  | unpacker (u_q : Quots4) (u_err : ErrCode)
  deriving DecidableEq, Repr

/-- One event of a run: the operand a unit answered and what its outputs showed (R160). -/
structure Sample where
  op : Instr
  out : Outputs
  deriving DecidableEq, Repr

/-- The state: the ports the host drives, what the host still means to do, what it has sampled, and the number of
unspecified outputs drawn so far. -/
structure State where
  /-- What the host drives on the input ports (R26, R161). Not state of the block (R21: no operand latch). -/
  inputs : Inputs
  /-- The moves the host has chosen and not made yet, next first (R22, R162). DESIGN CHOICE (log entry 2): the host's, not
  the block's. -/
  script : List HostMove
  /-- What the host has sampled, oldest first (R160); the host's record, not the block's (R143). DESIGN CHOICE (log
  entry 5). -/
  samples : List Sample
  /-- MODEL'S OWN (log entry 1, DESIGN CHOICE): how many unspecified outputs have been drawn; it numbers the free
  values. -/
  draws : Nat
  deriving DecidableEq, Repr

/-- Why the machine stops. -/
inductive Fault where
  /-- The host's list of moves is empty: the run is over and the block never acts by itself (R158, R160, R162).
  Raised by `stepOf`; safe (log entry 3). -/
  | runEnded
  /-- The host samples a unit some input port of which is undriven or changing: the sample has no meaning and the
  host is never handed a value (R150, R153, U5). Raised by `stepOf`; safe (log entry 4). -/
  | inputsNotHeld (u : CoreUnit)
  deriving DecidableEq, Repr

/-- Why an instruction has no meaning. -/
inductive Refusal where
  /-- Not modelled yet. Raised by no arm of `exec`: all four operations have their meaning; safe. -/
  | notModelled (mnemonic : String)
  deriving DecidableEq, Repr

/-- The machine before the host's first move. The block has no state and no reset (R29, R150); no port is driven, the
host has chosen no move and sampled nothing (R162), and no free value is drawn. That the ports start undriven, the list
empty and the count 0 is a DESIGN CHOICE (log entries 1 and 2), unsafe. -/
def State.reset : State where
  inputs := ⟨.undriven, .undriven, .undriven, .undriven, .undriven⟩
  script := []
  samples := []
  draws := 0

end Sys2Proof.Machine
end

