-- ==== Sys2Proof/Machine/Operands.lean ====
section
/-!
DEFINITION. Operands and results as numbers and as bits: the values of digit and quotient groups (R13), the fields a
computed list of digits or quotients fills, and the result word (R53).
-/

namespace Sys2Proof.Machine

/-! ### Fields as numbers -/

/-- The ten digits as numbers, least significant first (R13). -/
def digits10Values (d : Digits10) : List Nat :=
  [d.d0.toNat, d.d1.toNat, d.d2.toNat, d.d3.toNat, d.d4.toNat,
   d.d5.toNat, d.d6.toNat, d.d7.toNat, d.d8.toNat, d.d9.toNat]

/-- The three digits as numbers, least significant first (R13). -/
def digits3Values (e : Digits3) : List Nat := [e.e0.toNat, e.e1.toNat, e.e2.toNat]

/-- The four quotients as numbers, `q[0]` first (R32). -/
def quots4Values (q : Quots4) : List Nat := [q.q0.toNat, q.q1.toNat, q.q2.toNat, q.q3.toNat]

/-! ### Numbers as fields -/

/-- The digit field that holds the `k`-th number of a list. -/
def digitAt (ds : List Nat) (k : Nat) : DigitField := BitVec.ofNat 6 (ds.getD k 0)

/-- The quotient field that holds the `k`-th number of a list. -/
def quotAt (qs : List Nat) (k : Nat) : QuotField := BitVec.ofNat 5 (qs.getD k 0)

/-- Ten digit fields from ten numbers, least significant first. -/
def digits10Of (ds : List Nat) : Digits10 where
  d0 := digitAt ds 0
  d1 := digitAt ds 1
  d2 := digitAt ds 2
  d3 := digitAt ds 3
  d4 := digitAt ds 4
  d5 := digitAt ds 5
  d6 := digitAt ds 6
  d7 := digitAt ds 7
  d8 := digitAt ds 8
  d9 := digitAt ds 9

/-- Three digit fields from three numbers, least significant first. -/
def digits3Of (ds : List Nat) : Digits3 where
  e0 := digitAt ds 0
  e1 := digitAt ds 1
  e2 := digitAt ds 2

/-- Four quotient fields from four numbers, `q[0]` first. -/
def quots4Of (qs : List Nat) : Quots4 where
  q0 := quotAt qs 0
  q1 := quotAt qs 1
  q2 := quotAt qs 2
  q3 := quotAt qs 3

/-! ### The value a group denotes (R13) -/

/-- The value of ten digits: the sum of `d[k] * 62 ^ k` (R13). -/
def digits10Value (d : Digits10) : Nat :=
  d.d0.toNat + 62 * d.d1.toNat + 62 ^ 2 * d.d2.toNat + 62 ^ 3 * d.d3.toNat + 62 ^ 4 * d.d4.toNat +
  62 ^ 5 * d.d5.toNat + 62 ^ 6 * d.d6.toNat + 62 ^ 7 * d.d7.toNat + 62 ^ 8 * d.d8.toNat + 62 ^ 9 * d.d9.toNat

/-- The value of three digits (R13). -/
def digits3Value (e : Digits3) : Nat := e.e0.toNat + 62 * e.e1.toNat + 3844 * e.e2.toNat

/-- The composite of four quotients: `q0 * 22^0 + q1 * 22^1 + q2 * 22^2 + q3 * 22^3` (R14). -/
def quots4Value (q : Quots4) : Nat := q.q0.toNat + 22 * q.q1.toNat + 484 * q.q2.toNat + 10648 * q.q3.toNat

/-! ### The result word (R53) -/

/-- The 2-bit error field of R49 and R131. -/
def ErrCode.code : ErrCode → BitVec 2
  | .none => 0#2
  | .eDigit => 1#2
  | .eQuot => 2#2
  | .eRange => 3#2

/-- The error code a sample shows; the splitter's is the constant 0 (R27). -/
def Outputs.err : Outputs → ErrCode
  | .splitter _ _ => .none
  | .composer _ c => c
  | .packer _ c => c
  | .unpacker _ c => c

/-- The result payload in the operation's result format (R51). -/
def Outputs.payload : Outputs → Payload
  | .splitter q d => payloadQD65 q d
  | .composer w _ => payloadW64 w
  | .packer e _ => payloadD18 e
  | .unpacker q _ => payloadQ20 q

/-- The result word: error field, then result payload with its padding 0 (R53). -/
def resultWord (o : Outputs) : ResultWord := o.err.code ++ o.payload

end Sys2Proof.Machine
end

