-- ==== Sys2Proof/Machine/Flags.lean ====
section
/-!
DEFINITION. The block has no flags (R23). What it has instead are the conditions its error outputs report, tested in
the order of R136: `E_DIGIT`, then `E_QUOT`, then `E_RANGE`.
-/

namespace Sys2Proof.Machine

/-- The condition of `E_DIGIT`: some digit field holds 62 or 63 (R132). -/
def anyBadDigit (ds : List Nat) : Bool := ds.any fun d => decide (Config.base ≤ d)

/-- The condition of `E_QUOT`: some quotient field holds 22 to 31 (R133). -/
def anyBadQuot (qs : List Nat) : Bool := qs.any fun q => decide (Config.qradix ≤ q)

/-- The code of the first condition that holds, in the order of R136; 0 if none does. -/
def firstError (digit quot range : Bool) : ErrCode :=
  if digit then .eDigit else if quot then .eQuot else if range then .eRange else .none

end Sys2Proof.Machine
end

