-- ==== Sys2Proof/Machine/Ops.lean ====
section
/-!
DEFINITION. The operations the four meanings share: updates of the state, the input ports a unit reads and the operand
held on them, the digit loops, raising an error (R12, R138), and the completion of an operation.
-/

namespace Sys2Proof.Machine

/-! ### Updates of the state, one field each -/

/-- Replace what the host drives. -/
def State.setInputs (s : State) (x : Inputs) : State := { s with inputs := x }

/-- Replace what the host still means to do. -/
def State.setScript (s : State) (ms : List HostMove) : State := { s with script := ms }

/-- Append one sample to the host's record. -/
def State.pushSample (s : State) (x : Sample) : State := { s with samples := s.samples ++ [x] }

/-- Replace the count of free values drawn. -/
def State.setDraws (s : State) (n : Nat) : State := { s with draws := n }

/-! ### Ports -/

/-- Drive one port with a value and hold it (R161 (a), (b)); the other four keep what they have (R28). -/
def Inputs.drive (x : Inputs) : PortValue → Inputs
  | .s_w v => { x with s_w := .held v }
  | .c_q v => { x with c_q := .held v }
  | .c_d v => { x with c_d := .held v }
  | .p_q v => { x with p_q := .held v }
  | .u_e v => { x with u_e := .held v }

/-- The host begins to change one port (R153, R161 (d)). -/
def Inputs.change (x : Inputs) : InPort → Inputs
  | .s_w => { x with s_w := .changing }
  | .c_q => { x with c_q := .changing }
  | .c_d => { x with c_d := .changing }
  | .p_q => { x with p_q := .changing }
  | .u_e => { x with u_e := .changing }

/-- The host stops driving one port (R29, R150). -/
def Inputs.release (x : Inputs) : InPort → Inputs
  | .s_w => { x with s_w := .undriven }
  | .c_q => { x with c_q := .undriven }
  | .c_d => { x with c_d := .undriven }
  | .p_q => { x with p_q := .undriven }
  | .u_e => { x with u_e := .undriven }

/-- The operand on a unit's input ports, if every port of that unit is held (R35, R153). -/
def Inputs.operand (x : Inputs) : CoreUnit → Option Instr
  | .splitter =>
    match x.s_w with
    | .held w => some (.split w)
    | .undriven | .changing => none
  | .composer =>
    match x.c_q, x.c_d with
    | .held q, .held d => some (.compose q (Digits10.ofBits d))
    | _, _ => none
  | .packer =>
    match x.p_q with
    | .held q => some (.pack (Quots4.ofBits q))
    | .undriven | .changing => none
  | .unpacker =>
    match x.u_e with
    | .held e => some (.unpack (Digits3.ofBits e))
    | .undriven | .changing => none

/-- Present an operation's whole operand on its unit's input ports and hold it (R153). -/
def Inputs.present (x : Inputs) : Instr → Inputs
  | .split w => x.drive (.s_w w)
  | .compose q d => (x.drive (.c_q q)).drive (.c_d d.toBits)
  | .pack q => x.drive (.p_q q.toBits)
  | .unpack e => x.drive (.u_e e.toBits)

/-! ### The loops of the source's algorithms -/

/-- Peel `n` base-62 digits, least significant first: emit `t mod 62`, then `t <- t div 62` (R70, R90). -/
def peel : Nat → Nat → List Nat
  | 0, _ => []
  | n + 1, t => t % Config.base :: peel n (t / Config.base)

/-- What remains after `n` peelings (R70). -/
def peelRest : Nat → Nat → Nat
  | 0, t => t
  | n + 1, t => peelRest n (t / Config.base)

/-- Horner's method over digits given most significant first: `r <- r * 62 + digit` (R80, R100). -/
def horner : Nat → List Nat → Nat
  | r, [] => r
  | r, d :: ds => horner (r * Config.base + d) ds

/-- Successive division by the given powers: `q <- c div power`, `c <- c mod power` (R100). -/
def divideDown : List Nat → Nat → List Nat
  | [], _ => []
  | p :: ps, c => c / p :: divideDown ps (c % p)

/-! ### Results and errors -/

/-- What a unit drives: its error output and, where the rules specify it, its data output. `data = none` says the
data output is `unspecified(N)` (R11). -/
structure UnitResult (α : Type) where
  err : ErrCode
  data : Option α
  deriving DecidableEq, Repr

/-- The operation's defined result, error code 0 (R130). -/
def deliver {α : Type} (v : α) : UnitResult α := ⟨.none, some v⟩

/-- `raise <Error>(unit)` (R12, R138): drive the error output with the code and the data output as the raising rule
says. Nothing is saved, no mode changes and no control transfers, and there is nothing to return from (R140). -/
def raise {α : Type} (e : ErrCode) (data : Option α) : UnitResult α := ⟨e, data⟩

/-- The value the host finds on a data output: the specified one, or the free value of the next draw (R11, R143). -/
def UnitResult.shown {α : Type} (r : UnitResult α) (free : Nat → α) (n : Nat) : α := r.data.getD (free n)

/-- The count of draws after the output is sampled: one more if the output was unspecified. -/
def UnitResult.drawsAfter {α : Type} (r : UnitResult α) (n : Nat) : Nat :=
  match r.data with
  | some _ => n
  | none => n + 1

/-- Complete an operation: its operand stands held on its unit's input ports, and the host has sampled the outputs
(R158, R160). Nothing else changes (R36). -/
def complete (i : Instr) (out : Outputs) (draws : Nat) (s : State) : Host.Outcome State Fault Refusal :=
  .next (((s.setInputs (s.inputs.present i)).pushSample ⟨i, out⟩).setDraws draws)

end Sys2Proof.Machine
end

