-- ==== Sys2Proof/Machine/Composer.lean ====
section
/-!
DEFINITION. The Word Digit-Composer, operation COMPOSE (`spec/41_composer.md`).
-/

namespace Sys2Proof.Machine

/-- The loop of R80: from the quotient, through the digits from `d[9]` down to `d[0]`. -/
def composeValue (q : QuotField) (d : Digits10) : Nat := horner q.toNat (digits10Values d).reverse

/-- The error code on `c_err` (R80, R82, R83, R136). -/
def composeErr (q : QuotField) (d : Digits10) : ErrCode :=
  firstError (anyBadDigit (digits10Values d)) (anyBadQuot [q.toNat]) (decide (Config.wordLimit ≤ composeValue q d))

/-- What the composer drives: the word under code 0, and an unspecified `c_w` under each error (R80, R135). -/
def composeResult (q : QuotField) (d : Digits10) : UnitResult Word :=
  match composeErr q d with
  | .none => deliver (BitVec.ofNat 64 (composeValue q d))
  | .eDigit => raise .eDigit none
  | .eQuot => raise .eQuot none
  | .eRange => raise .eRange none

/-- COMPOSE (R80). -/
def execCompose (q : QuotField) (d : Digits10) (s : State) : Host.Outcome State Fault Refusal :=
  let r := composeResult q d
  complete (.compose q d)
    (.composer (r.shown (fun n => Config.freeComposeWord n (encode (.compose q d))) s.draws) r.err)
    (r.drawsAfter s.draws) s

end Sys2Proof.Machine
end

