-- ==== Sys2Proof/Machine/Packer.lean ====
section
/-!
DEFINITION. The Overflow Packer, operation PACK (`spec/42_overflow_packer.md`).
-/

namespace Sys2Proof.Machine

/-- The composite `q[0] + 22*q[1] + 484*q[2] + 10648*q[3]` (R90). -/
def packComposite (q : Quots4) : Nat := quots4Value q

/-- The error code on `p_err`: `E_QUOT` or none; PACK has no `E_RANGE` (R92). -/
def packErr (q : Quots4) : ErrCode := firstError false (anyBadQuot (quots4Values q)) false

/-- What the packer drives: three peelings of the composite, or an unspecified `p_e` under `E_QUOT` (R90, R92). -/
def packResult (q : Quots4) : UnitResult Digits3 :=
  match packErr q with
  | .none => deliver (digits3Of (peel Config.novf (packComposite q)))
  | e => raise e none

/-- PACK (R90). -/
def execPack (q : Quots4) (s : State) : Host.Outcome State Fault Refusal :=
  let r := packResult q
  complete (.pack q)
    (.packer (r.shown (fun n => Digits3.ofBits (Config.freePackDigits n (encode (.pack q)))) s.draws) r.err)
    (r.drawsAfter s.draws) s

end Sys2Proof.Machine
end

