-- ==== Sys2Proof/Machine/Splitter.lean ====
section
/-!
DEFINITION. The Word Digit-Splitter, operation SPLIT (`spec/40_splitter.md`).
-/

namespace Sys2Proof.Machine

/-- The quotient on `s_q`: what remains after ten peelings; at most 21, so it fits its field (R70, R72). -/
def splitQuot (w : Word) : QuotField := BitVec.ofNat 5 (peelRest Config.ndig w.toNat)

/-- The digits on `s_d`: ten peelings of the word (R70). -/
def splitDigits (w : Word) : Digits10 := digits10Of (peel Config.ndig w.toNat)

/-- SPLIT (R70): total, no error, no unspecified output (R27, R73). -/
def execSplit (w : Word) (s : State) : Host.Outcome State Fault Refusal :=
  complete (.split w) (.splitter (splitQuot w) (splitDigits w)) s.draws s

end Sys2Proof.Machine
end

