-- ==== Sys2Proof/Machine/Unpacker.lean ====
section
/-!
DEFINITION. The Overflow Unpacker, operation UNPACK (`spec/43_overflow_unpacker.md`).
-/

namespace Sys2Proof.Machine

/-- The composite `c0`: Horner's method from `e[2]` down to `e[0]` (R100). -/
def unpackComposite (e : Digits3) : Nat := horner 0 (digits3Values e).reverse

/-- The quotients of a composite: division by 10648, 484, 22 and 1 yields `q[3]` first (R100). -/
def unpackQuots (c : Nat) : Quots4 := quots4Of (divideDown Config.powersDown c).reverse

/-- The error code on `u_err` (R102, R103). -/
def unpackErr (e : Digits3) : ErrCode :=
  firstError (anyBadDigit (digits3Values e)) false (decide (Config.compositeLimit ≤ unpackComposite e))

/-- What the unpacker drives: the quotients under code 0 and, as computed, under `E_RANGE` (R103); an unspecified
`u_q` under `E_DIGIT` (R102). -/
def unpackResult (e : Digits3) : UnitResult Quots4 :=
  match unpackErr e with
  | .none => deliver (unpackQuots (unpackComposite e))
  | .eRange => raise .eRange (some (unpackQuots (unpackComposite e)))
  | c => raise c none

/-- UNPACK (R100). -/
def execUnpack (e : Digits3) (s : State) : Host.Outcome State Fault Refusal :=
  let r := unpackResult e
  complete (.unpack e)
    (.unpacker (r.shown (fun n => Quots4.ofBits (Config.freeUnpackQuots n (encode (.unpack e)))) s.draws) r.err)
    (r.drawsAfter s.draws) s

end Sys2Proof.Machine
end

