-- ==== Sys2Proof/Machine/Dispatch.lean ====
section
/-!
DEFINITION. One arm per operation of `spec/opcode_table.json`.
-/

namespace Sys2Proof.Machine

def exec (i : Instr) (s : State) : Host.Outcome State Fault Refusal :=
  match i with
  | .split w => Sys2Proof.Machine.execSplit w s
  | .compose q d => Sys2Proof.Machine.execCompose q d s
  | .pack q => Sys2Proof.Machine.execPack q s
  | .unpack e => Sys2Proof.Machine.execUnpack e s

end Sys2Proof.Machine
end

