-- ==== Sys2Proof/Machine/HostMoves.lean ====
section
/-!
DEFINITION. The host's side of a run: its moves (R161), made one at a time in the order it chose (R22, R160), and the
placing of one operation at the head of what it does next.
-/

namespace Sys2Proof.Machine

/-- Sample a unit: the outputs are the function of the operand now held on its inputs (R20, R44); if some input of
the unit is undriven or changing there is no such value, and the host is stuck (R150, R153). -/
def sampleUnit (u : CoreUnit) (s : State) : Host.Outcome State Fault Refusal :=
  match s.inputs.operand u with
  | some i => exec i s
  | none => .fault (.inputsNotHeld u)

/-- Make one move, whole and by itself (R160; log entry 8, DEDUCED, safe). -/
def makeMove (m : HostMove) (s : State) : Host.Outcome State Fault Refusal :=
  match m with
  | .drive v => .next (s.setInputs (s.inputs.drive v))
  | .change p => .next (s.setInputs (s.inputs.change p))
  | .release p => .next (s.setInputs (s.inputs.release p))
  | .sample u => sampleUnit u s
  | .command w => exec (decodeWord w) s

/-- One step of the whole: the host's next move, taken off its list. With no move left the run is over (R162). -/
def stepOf (s : State) : Host.Outcome State Fault Refusal :=
  match s.script with
  | [] => .fault .runEnded
  | m :: ms => makeMove m (s.setScript ms)

/-- Put the operation whose word is `w` before everything the host still means to do. A number that is no operation
word (R52) is not placed. DESIGN CHOICE (log entries 2 and 11), safe: no operation follows from a number that is none. -/
def placeCommand (s : State) (w : Nat) : State :=
  if w < 2 ^ 67 then s.setScript (.command (BitVec.ofNat 67 w) :: s.script) else s

end Sys2Proof.Machine
end

