-- ==== Sys2Proof/Machine/Step.lean ====
section
/-!
DEFINITION. The step, and where it finds its next operation: at the head of the host's list of moves (R22, R162).
-/

namespace Sys2Proof.Machine

/-- One step: the host's next move. -/
def step : State → Host.Outcome State Fault Refusal := stepOf

/-- `s` with the operation of table word `w` placed as the host's very next move (log entry 2, DESIGN CHOICE). -/
def State.withFetchWord (s : State) (nbits w : Nat) : State := placeCommand s (w % 2 ^ nbits)

end Sys2Proof.Machine
end

