-- ==== Sys2Proof/Machine/Codec.lean ====
section
/-!
DEFINITION. The host protocol around the block (`spec/45_host_alphabet_codec.md`): the Symbol Alphabet, the layout of
the 43-character string, encode and decode through the four units, and the two decode errors. None of it is hardware:
it adds no port, no state and no operation to the block (R5).
-/

namespace Sys2Proof.Machine

/-! ### Symbol Alphabet (R110 to R112) -/

/-- The characters from `first` to `last`, in the order of their codes. -/
def charRun (first last : Char) : List Char :=
  (List.range (last.toNat + 1 - first.toNat)).map fun k => Char.ofNat (first.toNat + k)

/-- The 62 characters in digit order, the three runs of R110; `alphabet_eq_string` shows that they are the string R110
spells out, the definition of the mapping (K1). That a character of the spec is the Lean `Char` of the same ASCII code
is PRESUMED (log entry 6), unsafe for a host with another character set. -/
def alphabet : List Char := charRun '0' '9' ++ charRun 'A' 'Z' ++ charRun 'a' 'z'

/-- `digitToChar(d)`; no character for a number above 61, a fault of the host (R110, U8). -/
def digitToChar (d : Nat) : Option Char := alphabet[d]?

/-- The place of a character in a list, counted from `n`. -/
def placeFrom (n : Nat) (c : Char) : List Char → Option Nat
  | [] => none
  | x :: xs => if x = c then some n else placeFrom (n + 1) c xs

/-- `charToDigit(c)`: the exact inverse; fails for every character outside the alphabet (R111). -/
def charToDigit (c : Char) : Option Nat := placeFrom 0 c alphabet

/-! ### The data of the codec -/

/-- Value256: an ordered sequence of four words; equality is of all four (R18, R114). -/
structure Value256 where
  w0 : Word
  w1 : Word
  w2 : Word
  w3 : Word
  deriving DecidableEq, Repr

/-- Why the host's encode could stop; it never does (R117). The names are a DESIGN CHOICE (log entry 14), safe. -/
inductive HostFault where
  /-- `digitToChar` of a number above 61 (R110, U8); safe. -/
  | digitOutOfRange
  /-- A unit reported an error code; safe. -/
  | unitError (e : ErrCode)
  deriving DecidableEq, Repr

/-- The decode errors: the taxonomy is closed (R119). -/
inductive DecodeError where
  /-- The input is not exactly 43 characters (`InvalidLength` is the same error, C4). -/
  | wrongLength
  /-- A character outside the alphabet, with its 0-based position. -/
  | invalidSymbol (position : Nat) (character : Char)
  deriving DecidableEq, Repr

/-- What decode answers. -/
inductive DecodeOutcome where
  /-- The decoded value. -/
  | value (v : Value256)
  /-- One of the two errors of R119. -/
  | error (e : DecodeError)
  /-- Some other outcome, numbered: `HOST_ON_RANGE_ERR` may be anything (R121). DESIGN CHOICE (log entry 9), safe. -/
  | other (n : Nat)
  deriving DecidableEq, Repr

/-! ### Encode (R116) -/

/-- The characters of digit fields in order; a field of 62 or 63 is a fault of the host (U8). -/
def charsOf : List DigitField → Except HostFault (List Char)
  | [] => .ok []
  | d :: ds =>
    match digitToChar d.toNat, charsOf ds with
    | some c, .ok cs => .ok (c :: cs)
    | none, _ => .error .digitOutOfRange
    | some _, .error e => .error e

/-- The ten digit fields, least significant first: the order of their characters (R113). -/
def digits10List (d : Digits10) : List DigitField := [d.d0, d.d1, d.d2, d.d3, d.d4, d.d5, d.d6, d.d7, d.d8, d.d9]

/-- The three digit fields, least significant first: the order of characters 40 to 42 (R113). -/
def digits3List (e : Digits3) : List DigitField := [e.e0, e.e1, e.e2]

/-- The four quotients the SPLITs of a value yield (R116). -/
def splitQuots (v : Value256) : Quots4 := ⟨splitQuot v.w0, splitQuot v.w1, splitQuot v.w2, splitQuot v.w3⟩

/-- `encode(v)`: four SPLITs, one PACK, and the digits as characters (R113, R116). -/
def encode256 (v : Value256) : Except HostFault (List Char) :=
  match packResult (splitQuots v) with
  | ⟨.none, some e⟩ =>
    charsOf (digits10List (splitDigits v.w0) ++ digits10List (splitDigits v.w1) ++
      digits10List (splitDigits v.w2) ++ digits10List (splitDigits v.w3) ++ digits3List e)
  | r => .error (.unitError r.err)

/-- The operations `ENCODE256` expands to (R60, R116). -/
def encode256Ops (v : Value256) : List Instr :=
  [.split v.w0, .split v.w1, .split v.w2, .split v.w3, .pack (splitQuots v)]

/-- The digit fields a sample shows, in string order; the composer and the unpacker show none. -/
def Outputs.digits : Outputs → List DigitField
  | .splitter _ d => digits10List d
  | .packer e _ => digits3List e
  | .composer _ _ => []
  | .unpacker _ _ => []

/-- The string the host writes from the samples of an encode, in order (R116). -/
def stringOfSamples (xs : List Sample) : Except HostFault (List Char) :=
  charsOf (xs.flatMap fun x => x.out.digits)

/-! ### Decode (R118) -/

/-- The order the source does not fix, `DECODE_SCAN_ORDER`: the spec's choice, ascending (R120, D15; log entry 10). -/
def ascendingOrder : List Nat := List.range 43

/-- The first position, in the given order, whose character is not in the alphabet (R120). -/
def firstInvalid (s : List Char) : List Nat → Option (Nat × Char)
  | [] => none
  | p :: ps =>
    match s[p]? with
    | none => firstInvalid s ps
    | some c =>
      match charToDigit c with
      | some _ => firstInvalid s ps
      | none => some (p, c)

/-- The digit of the character at a position, as a digit field (R118). It is asked only of a string that `decodeCheck`
passes; elsewhere 0 stands for a missing digit, and nothing shows it. -/
def digitOfChar (s : List Char) (p : Nat) : DigitField :=
  BitVec.ofNat 6 (((s[p]?).bind charToDigit).getD 0)

/-- The ten digits of word `i`: characters `10i` to `10i+9`, `d[0]` first (R87, R113). -/
def wordDigits (s : List Char) (i : Nat) : Digits10 where
  d0 := digitOfChar s (10 * i)
  d1 := digitOfChar s (10 * i + 1)
  d2 := digitOfChar s (10 * i + 2)
  d3 := digitOfChar s (10 * i + 3)
  d4 := digitOfChar s (10 * i + 4)
  d5 := digitOfChar s (10 * i + 5)
  d6 := digitOfChar s (10 * i + 6)
  d7 := digitOfChar s (10 * i + 7)
  d8 := digitOfChar s (10 * i + 8)
  d9 := digitOfChar s (10 * i + 9)

/-- The trailer: characters 40, 41 and 42, `e[0]` first (R107, R113). -/
def trailerDigits (s : List Char) : Digits3 := ⟨digitOfChar s 40, digitOfChar s 41, digitOfChar s 42⟩

/-- The operations `DECODE256` expands to on a string over the alphabet: UNPACK, then the four COMPOSEs with the
quotients it showed, also after `E_RANGE` (R60, R118). -/
def decode256Ops (s : List Char) : List Instr :=
  .unpack (trailerDigits s) ::
    match (unpackResult (trailerDigits s)).data with
    | none => []
    | some q =>
      [.compose q.q0 (wordDigits s 0), .compose q.q1 (wordDigits s 1),
       .compose q.q2 (wordDigits s 2), .compose q.q3 (wordDigits s 3)]

/-- The four words, if UNPACK and all four COMPOSEs reported code 0 (R118); otherwise nothing is settled (R121). -/
def decodeWords (s : List Char) : Option Value256 :=
  match unpackResult (trailerDigits s) with
  | ⟨.none, some q⟩ =>
    match composeResult q.q0 (wordDigits s 0), composeResult q.q1 (wordDigits s 1),
          composeResult q.q2 (wordDigits s 2), composeResult q.q3 (wordDigits s 3) with
    | ⟨.none, some w0⟩, ⟨.none, some w1⟩, ⟨.none, some w2⟩, ⟨.none, some w3⟩ => some ⟨w0, w1, w2, w3⟩
    | _, _, _, _ => none
  | _ => none

/-- The two checks that come before any unit is driven: the length, then the characters in the given order (R118 to
R120). The error, or nothing for a string of 43 characters whose examined characters all have digits. -/
def decodeCheck (order : List Nat) (s : List Char) : Option DecodeError :=
  if s.length = 43 then (firstInvalid s order).map fun pc => .invalidSymbol pc.1 pc.2 else some .wrongLength

/-- `decode(s)` (R118 to R121). `order` is `DECODE_SCAN_ORDER`, an order of the 43 positions; `onRange` is
`HOST_ON_RANGE_ERR`, what the host answers for a well-formed string that is not canonical. Both are open: claims
quantify over them (R162; log entries 9 and 10, DESIGN CHOICE, safe). -/
def decode256 (order : List Nat) (onRange : List Char → DecodeOutcome) (s : List Char) : DecodeOutcome :=
  match decodeCheck order s with
  | some e => .error e
  | none =>
    match decodeWords s with
    | some v => .value v
    | none => onRange s

/-! ### A sequence of operations on the block -/

/-- Perform operations one after the other, stopping where the machine stops (R22, R162). -/
def runOps : List Instr → State → Host.Outcome State Fault Refusal
  | [], s => .next s
  | i :: is, s =>
    match exec i s with
    | .next t => runOps is t
    | .fault f => .fault f
    | .refused r => .refused r

end Sys2Proof.Machine
end

