-- ==== Sys2Proof/Machine/Listing.lean ====
section
/-!
DEFINITION. The written forms of the spec: operation words in hexadecimal (R52) and the listing syntax (R59), as lists of
characters. A convention of the spec (D10); no behaviour of the block depends on it. Capitals, the width of a written
word, and what separates items on reading are a DESIGN CHOICE (log entry 12), safe.
-/

namespace Sys2Proof.Machine

/-! ### Numbers -/

/-- A hexadecimal digit's character, in capitals: the digits 0 to 15 of the Symbol Alphabet look the same. -/
def hexChar (n : Nat) : Char := alphabet.getD n '?'

/-- `k` hexadecimal digits of a number, most significant first. -/
def hexDigits : Nat → Nat → List Char
  | 0, _ => []
  | k + 1, n => hexChar (n / 16 ^ k % 16) :: hexDigits k n

/-- An operation word or result word: `0x` and 17 hexadecimal digits, the top one 0 to 7 (R52). -/
def showOpWord (w : BitVec 67) : List Char := '0' :: 'x' :: hexDigits 17 w.toNat

/-- A word in hexadecimal, 16 digits. -/
def showWord (w : Word) : List Char := '0' :: 'x' :: hexDigits 16 w.toNat

/-- A number in decimal. -/
def showNat (n : Nat) : List Char := Nat.toDigits 10 n

/-- The value of a hexadecimal digit, read off its place in the Symbol Alphabet: the places 0 to 15 as they are, and the
small letters `a` to `f`, at the places 36 to 41, as 10 to 15. -/
def hexValue (c : Char) : Option Nat :=
  match charToDigit c with
  | none => none
  | some d => if d < 16 then some d else if 36 ≤ d ∧ d ≤ 41 then some (d - 26) else none

/-- The value of digits in a radix, most significant first, after a value `a`; each digit must be below the radix. -/
def readRadix (radix : Nat) : Nat → List Char → Option Nat
  | a, [] => some a
  | a, c :: cs =>
    match hexValue c with
    | none => none
    | some d => if d < radix then readRadix radix (a * radix + d) cs else none

/-- A number: decimal unless it begins with `0x` (R59). -/
def readNat : List Char → Option Nat
  | [] => none
  | '0' :: 'x' :: c :: cs => readRadix 16 0 (c :: cs)
  | c :: cs => readRadix 10 0 (c :: cs)

/-! ### Writing a line -/

/-- Items with one space between them. -/
def spaced : List (List Char) → List Char
  | [] => []
  | [x] => x
  | x :: y :: xs => x ++ ' ' :: spaced (y :: xs)

/-- The name of an error code (R131). -/
def ErrCode.name : ErrCode → List Char
  | .none => "NONE".toList
  | .eDigit => "E_DIGIT".toList
  | .eQuot => "E_QUOT".toList
  | .eRange => "E_RANGE".toList

/-- The mnemonic of a unit's operation (R2). -/
def CoreUnit.mnemonic : CoreUnit → List Char
  | .splitter => "SPLIT".toList
  | .composer => "COMPOSE".toList
  | .packer => "PACK".toList
  | .unpacker => "UNPACK".toList

/-- A quotient and ten digits: `q, d0 d1 … d9` (R59). -/
def showQuotDigits (q : QuotField) (d : Digits10) : List Char :=
  showNat q.toNat ++ ',' :: ' ' :: spaced ((digits10Values d).map showNat)

/-- A result after `->`: the data, or `?` where it is unspecified, and `; err=NAME` for a code other than 0 (R59). -/
def showResult {α : Type} (sh : α → List Char) (r : UnitResult α) : List Char :=
  (match r.data with
    | some v => sh v
    | none => ['?']) ++
  (match r.err with
    | .none => []
    | e => " ; err=".toList ++ e.name)

/-- The operands of an operation as R59 writes them. -/
def showOperands : Instr → List Char
  | .split w => showWord w
  | .compose q d => showQuotDigits q d
  | .pack q => spaced ((quots4Values q).map showNat)
  | .unpack e => spaced ((digits3Values e).map showNat)

/-- The results of an operation as R59 writes them. -/
def showResults : Instr → List Char
  | .split w => showQuotDigits (splitQuot w) (splitDigits w)
  | .compose q d => showResult showWord (composeResult q d)
  | .pack q => showResult (fun e => spaced ((digits3Values e).map showNat)) (packResult q)
  | .unpack e => showResult (fun q => spaced ((quots4Values q).map showNat)) (unpackResult e)

/-- One line of a listing: mnemonic, operands, `->`, results (R59). -/
def listing (i : Instr) : List Char :=
  CoreUnit.mnemonic i.coreUnit ++ ' ' :: showOperands i ++ " -> ".toList ++ showResults i

/-! ### Reading the operand part of a line -/

/-- The code of the double quote, which encloses a digit group written as characters (R59). -/
def doubleQuote : Char := Char.ofNat 34

/-- The code of the single quote, which encloses one digit written as its character (R59). -/
def singleQuote : Char := Char.ofNat 39

/-- A token of a line. -/
inductive Token where
  /-- A mnemonic or a number. -/
  | word (cs : List Char)
  /-- One character in single quotes. -/
  | digit (c : Char)
  /-- The characters between double quotes. -/
  | group (cs : List Char)
  deriving DecidableEq, Repr

/-- A pending item as tokens: nothing if it is empty. -/
def flushToken (acc : List Char) : List Token := if acc = [] then [] else [.word acc.reverse]

/-- The token a closing quote ends: a group in double quotes, exactly one character in single quotes (R59). `acc` is what
stands between the quotes, last character first. -/
def quotedToken (quote : Char) (acc : List Char) : Option Token :=
  if quote = doubleQuote then some (.group acc.reverse)
  else
    match acc with
    | [c] => some (.digit c)
    | _ => none

/-- Split a line into tokens: spaces and commas separate, quotes enclose characters, `;` starts a comment, and `->` ends
the operands (R59). `acc` is the item being read, last character first; `quote` is the open quote, if any. What
separates, and that no quote can stand between quotes of its own kind, is a DESIGN CHOICE (log entry 12), safe. -/
def tokens : List Char → Option Char → List Char → Option (List Token)
  | [], none, acc => some (flushToken acc)
  | [], some _, _ => none
  | c :: cs, some quote, acc =>
    if c = quote then
      match quotedToken quote acc with
      | some t => (tokens cs none []).map (t :: ·)
      | none => none
    else tokens cs (some quote) (c :: acc)
  | c :: cs, none, acc =>
    if c = ';' then some (flushToken acc)
    else if c = '-' ∧ cs.head? = some '>' then some (flushToken acc)
    else if c = ' ' ∨ c = ',' then (tokens cs none []).map (flushToken acc ++ ·)
    else if c = doubleQuote ∨ c = singleQuote then (tokens cs (some c) []).map (flushToken acc ++ ·)
    else tokens cs none (c :: acc)

/-- All values of a list, or nothing. -/
def allSome : List (Option Nat) → Option (List Nat)
  | [] => some []
  | none :: _ => none
  | some x :: xs => (allSome xs).map (x :: ·)

/-- The number an unquoted token denotes; a word or a quotient is written in no other way (R59). -/
def Token.number : Token → Option Nat
  | .word cs => readNat cs
  | .digit _ => none
  | .group _ => none

/-- The digit field a token denotes: its number, or its character in single quotes (R59). -/
def Token.digitField : Token → Option Nat
  | .word cs => readNat cs
  | .digit c => charToDigit c
  | .group _ => none

/-- Exactly `n` numbers, each below `bound`, so that it fits its field (R45, R47, R49). -/
def numbers (bound n : Nat) (ts : List Token) : Option (List Nat) :=
  if ts.length = n then (allSome (ts.map Token.number)).filter (·.all (· < bound)) else none

/-- Exactly `n` digit fields: one group in double quotes, first character least significant, or `n` single ones (R59). -/
def digitGroup (n : Nat) (ts : List Token) : Option (List Nat) :=
  match ts with
  | [.group cs] => if cs.length = n then allSome (cs.map charToDigit) else none
  | _ => if ts.length = n then (allSome (ts.map Token.digitField)).filter (·.all (· < 64)) else none

/-- The operation a mnemonic and its operands denote (R59). -/
def operationOf (mnemonic : List Char) (ts : List Token) : Option Instr :=
  if mnemonic = CoreUnit.mnemonic .splitter then
    (numbers (2 ^ 64) 1 ts).map fun ns => .split (BitVec.ofNat 64 (ns.getD 0 0))
  else if mnemonic = CoreUnit.mnemonic .composer then
    match numbers 32 1 (ts.take 1), digitGroup 10 (ts.drop 1) with
    | some qs, some ds => some (.compose (quotAt qs 0) (digits10Of ds))
    | _, _ => none
  else if mnemonic = CoreUnit.mnemonic .packer then (numbers 32 4 ts).map fun ns => .pack (quots4Of ns)
  else if mnemonic = CoreUnit.mnemonic .unpacker then (digitGroup 3 ts).map fun ds => .unpack (digits3Of ds)
  else none

/-- Read the operation of a line; what stands after `->` or `;` is not read (R59). -/
def readListing (line : List Char) : Option Instr :=
  match tokens line none [] with
  | some (.word m :: ts) => operationOf m ts
  | _ => none

/-! ### Lines of the two macros (R60) -/

/-- The mnemonic of the encode macro. -/
def encodeMnemonic : List Char := "ENCODE256".toList

/-- The mnemonic of the decode macro. -/
def decodeMnemonic : List Char := "DECODE256".toList

/-- A string in double quotes. -/
def quoted (s : List Char) : List Char := doubleQuote :: s ++ [doubleQuote]

/-- The four words of a value, `w[0]` first. -/
def showValue (v : Value256) : List Char := spaced ([v.w0, v.w1, v.w2, v.w3].map showWord)

/-- A line `ENCODE256 w0 w1 w2 w3 -> "43 chars"` (R60). -/
def encodeListing (v : Value256) : List Char :=
  encodeMnemonic ++ ' ' :: showValue v ++ " -> ".toList ++
    match encode256 v with
    | .ok s => quoted s
    | .error _ => ['?']

/-- A decode error as R119 writes it: its name, and for an invalid character the position and the character. -/
def DecodeError.name : DecodeError → List Char
  | .wrongLength => "WrongLength".toList
  | .invalidSymbol p c =>
    "InvalidSymbol(".toList ++ showNat p ++ [',', ' ', singleQuote, c, singleQuote, ')']

/-- A line `DECODE256 "43 chars" -> w0 w1 w2 w3` (R60), with `?` where the four words are not settled (R121). The spec
gives a string that fails the length or symbol check no written form: `? ; err=` and the decode error, as R59 writes an
operation's error, is a DESIGN CHOICE (log entry 16), safe. -/
def decodeListing (order : List Nat) (s : List Char) : List Char :=
  decodeMnemonic ++ ' ' :: quoted s ++ " -> ".toList ++
    match decodeCheck order s with
    | some e => "? ; err=".toList ++ e.name
    | none =>
      match decodeWords s with
      | some v => showValue v
      | none => ['?']

/-- What a macro line expands to (R60): the operations of `ENCODE256`; for `DECODE256` the length and symbol checks, in
the order `DECODE_SCAN_ORDER`, and then its operations. Nothing for a line that is no macro. -/
def expandMacro (order : List Nat) (line : List Char) : Option (Except DecodeError (List Instr)) :=
  match tokens line none [] with
  | some (.word m :: ts) =>
    if m = encodeMnemonic then
      (numbers (2 ^ 64) 4 ts).map fun ns => .ok (encode256Ops ⟨BitVec.ofNat 64 (ns.getD 0 0),
        BitVec.ofNat 64 (ns.getD 1 0), BitVec.ofNat 64 (ns.getD 2 0), BitVec.ofNat 64 (ns.getD 3 0)⟩)
    else if m = decodeMnemonic then
      match ts with
      | [.group s] =>
        match decodeCheck order s with
        | some e => some (.error e)
        | none => some (.ok (decode256Ops s))
      | _ => none
    else none
  | _ => none

/-- Read an operation word written as `0x` and 17 hexadecimal digits; any other form, and a top digit above 7, is not
one (R52). -/
def readOpWord (cs : List Char) : Option Instr :=
  if cs.length = 19 ∧ cs.take 2 = ['0', 'x'] then
    match readNat cs with
    | some n =>
      match decode n with
      | .ok i => some i
      | .error _ => none
    | none => none
  else none

end Sys2Proof.Machine
end

