-- ==== Sys2Proof/WellFormed.lean ====
section
/-!
DEFINITION. Well-formed operands in the spec's sense (R19): every digit field at most 61 and every quotient field at
most 21. An ill-formed operand is still an operand that the block answers (R54, R56); it is not refused by decoding.
-/

namespace Sys2Proof

/-- The field holds a digit, that is, a value in [0,61] (R45). -/
def digitOk (d : DigitField) : Bool := decide (d.toNat ≤ 61)

/-- The field holds a quotient, that is, a value in [0,21] (R47). -/
def quotOk (q : QuotField) : Bool := decide (q.toNat ≤ 21)

/-- All ten fields hold digits. -/
def Digits10.wf (d : Digits10) : Bool :=
  digitOk d.d0 && digitOk d.d1 && digitOk d.d2 && digitOk d.d3 && digitOk d.d4 &&
  digitOk d.d5 && digitOk d.d6 && digitOk d.d7 && digitOk d.d8 && digitOk d.d9

/-- All three fields hold digits. -/
def Digits3.wf (e : Digits3) : Bool := digitOk e.e0 && digitOk e.e1 && digitOk e.e2

/-- All four fields hold quotients. -/
def Quots4.wf (q : Quots4) : Bool := quotOk q.q0 && quotOk q.q1 && quotOk q.q2 && quotOk q.q3

/-- The operation's operand is well-formed (R19). Every operand of SPLIT is (R27). -/
def Instr.wf : Instr → Bool
  | .split _ => true
  | .compose q d => quotOk q && d.wf
  | .pack q => q.wf
  | .unpack e => e.wf

end Sys2Proof
end

