-- ==== Sys2Proof/Safety.lean ====
section
/-!
DEFINITION. What claims are stated with: the contract of each unit as plain arithmetic (not through the meanings'
loops), when a data output may be used (R143, R154), and the two invariants of a run.
-/

namespace Sys2Proof.Machine

/-- The number a COMPOSE operand denotes: `q * 62 ^ 10 + sum of d[k] * 62 ^ k` (R81). -/
def pairValue (q : QuotField) (d : Digits10) : Nat := q.toNat * 62 ^ 10 + digits10Value d

/-- The error code each operand calls for, as the table of R135 and the order of R136 say. -/
def contractErr : Instr → ErrCode
  | .split _ => .none
  | .compose q d =>
    if d.wf = false then .eDigit
    else if quotOk q = false then .eQuot
    else if 2 ^ 64 ≤ pairValue q d then .eRange
    else .none
  | .pack q => if q.wf = false then .eQuot else .none
  | .unpack e =>
    if e.wf = false then .eDigit
    else if 234256 ≤ digits3Value e then .eRange
    else .none

/-- The data outputs of an operation are `unspecified(N)`: under every error of COMPOSE and PACK, and under `E_DIGIT`
of UNPACK (the last column of R135's table). -/
def unspecifiedData (i : Instr) : Bool :=
  match i, contractErr i with
  | .split _, _ => false
  | _, .none => false
  | .unpack _, .eRange => false
  | _, _ => true

/-- The sample shows what its unit's contract allows: the right error code and, where the data output is specified,
the right data (R70, R80, R90, R100 with R72, R81, R91, R101, R103). -/
def Sample.Genuine (x : Sample) : Prop :=
  match x.op, x.out with
  | .split w, .splitter q d => w.toNat = pairValue q d ∧ quotOk q = true ∧ d.wf = true
  | .compose q d, .composer w c => c = contractErr (.compose q d) ∧ (c = .none → w.toNat = pairValue q d)
  | .pack q, .packer e c =>
    c = contractErr (.pack q) ∧ (c = .none → digits3Value e = quots4Value q ∧ e.wf = true)
  | .unpack e, .unpacker q c =>
    c = contractErr (.unpack e) ∧
      (c ≠ .eDigit → quots4Value q = digits3Value e ∧
        quotOk q.q0 = true ∧ quotOk q.q1 = true ∧ quotOk q.q2 = true ∧ q.q3.toNat ≤ 22)
  | .split _, _ => False
  | .compose _ _, _ => False
  | .pack _, _ => False
  | .unpack _, _ => False

/-- INVARIANT: every sample the host has recorded is genuine (R20, R44). -/
def State.AllGenuine (s : State) : Prop := ∀ x ∈ s.samples, x.Genuine

/-- INVARIANT of the model's own field: each recorded sample with unspecified data has had a draw of its own (R11). -/
def State.DrawsCounted (s : State) : Prop := s.draws = (s.samples.filter fun x => unspecifiedData x.op).length

/-- `exec i s` answers the next state in which unit `i.coreUnit` has been sampled once, showing `out`: the operand of
`i` stands on that unit's ports, the sample is recorded last, `n` draws have been made, and nothing else differs. -/
def Answers (i : Instr) (s : State) (out : Outputs) (n : Nat) : Prop :=
  exec i s = .next
    { inputs := s.inputs.present i, script := s.script, samples := s.samples ++ [⟨i, out⟩], draws := n }

/-- The host may use the data of this sample: its error code is 0 (R143, R154). -/
def Sample.Usable (x : Sample) : Prop := x.out.err = .none

/-- A run whose every error code was 0: the premise of a claim about a sequence of operations (R143, R162). -/
def State.AllClear (s : State) : Prop := ∀ x ∈ s.samples, x.Usable

/-- Two samples of one operand agree: the same error code and, unless the data is unspecified, the same data (R20). -/
def Sample.Agrees (x y : Sample) : Prop :=
  x.op = y.op ∧ x.out.err = y.out.err ∧ (unspecifiedData x.op = false → x.out = y.out)

/-- An order of the 43 positions: what `DECODE_SCAN_ORDER` ranges over (R120). -/
def ScanOrder (order : List Nat) : Prop := order.Perm ascendingOrder

end Sys2Proof.Machine
end

