-- ==== Sys2Proof/Certificates/Slice0/Obligations.lean ====
section
/-!
DEFINITION. The statements for the provers, from the numbered rules of `spec/`. An unspecified output appears in them as
the model's free value (log entry 1): a constant with no body applied to the number of the draw and the operation word.
No statement rests on what a free value is.
-/

open Sys2Proof Sys2Proof.Machine

/-! ### Encodings (`spec/30_encoding.md`) -/

/-- Decoding the operation word of any operation gives that operation back, with every operand at every value of its
fields, well-formed or not. From section 3 of `spec/30_encoding.md`. -/
def Obligations.DecodeOfEncodeIsIdentity : Prop :=
  ∀ i : Instr, decodeWord (encode i) = i ∧ decode (encode i).toNat = .ok i ∧
    decodeTableWord 67 (encode i).toNat = some i

/-- R54 (decision D9). Every word decodes; the unit code selects the operation and all four codes are assigned; words
that differ only in padding denote the same operation and only such words do; encoding writes padding as 0; and the
mask and match of each row of the operation map pick out its operation. -/
def Obligations.DecodingIsTotalAndIgnoresPadding : Prop :=
  (∀ w : OpWord, decode w.toNat = .ok (decodeWord w)) ∧
  (∀ w : OpWord, (decodeWord w).coreUnit.code = w.extractLsb' 65 2) ∧
  (∀ w v : OpWord, decodeWord w = decodeWord v ↔
    match (decodeWord w).coreUnit with
    | .splitter => w &&& 0x6FFFFFFFFFFFFFFFF#67 = v &&& 0x6FFFFFFFFFFFFFFFF#67
    | .composer => w = v
    | .packer => w &&& 0x600000000000FFFFF#67 = v &&& 0x600000000000FFFFF#67
    | .unpacker => w &&& 0x6000000000003FFFF#67 = v &&& 0x6000000000003FFFF#67) ∧
  (∀ w : OpWord, encode (decodeWord w) =
    match (decodeWord w).coreUnit with
    | .splitter => w &&& 0x6FFFFFFFFFFFFFFFF#67
    | .composer => w
    | .packer => w &&& 0x600000000000FFFFF#67
    | .unpacker => w &&& 0x6000000000003FFFF#67) ∧
  (∀ w : OpWord, w &&& 0x60000000000000000#67 =
    match (decodeWord w).coreUnit with
    | .splitter => 0x00000000000000000#67
    | .composer => 0x20000000000000000#67
    | .packer => 0x40000000000000000#67
    | .unpacker => 0x60000000000000000#67)

/-- Every operand is a whole field taken verbatim from its bits: bit `j` of field `k` of a group is bit `6k+j` (or
`5k+j`) of the word. From section 4 of `spec/30_encoding.md` (an inference the spec marks derived). -/
def Obligations.OperandFieldsAreTakenVerbatim : Prop :=
  ∀ w : OpWord,
    (w.extractLsb' 65 2 = 0#2 → ∃ x : Word, decodeWord w = .split x ∧ ∀ j, j < 64 → x.getLsbD j = w.getLsbD j) ∧
    (w.extractLsb' 65 2 = 1#2 → ∃ (q : QuotField) (d : Digits10), decodeWord w = .compose q d ∧
      (∀ j, j < 5 → q.getLsbD j = w.getLsbD (60 + j)) ∧
      ∀ k j, k < 10 → j < 6 → ((digits10List d).getD k 0).getLsbD j = w.getLsbD (6 * k + j)) ∧
    (w.extractLsb' 65 2 = 2#2 → ∃ q : Quots4, decodeWord w = .pack q ∧
      ∀ k j, k < 4 → j < 5 → ([q.q0, q.q1, q.q2, q.q3].getD k 0).getLsbD j = w.getLsbD (5 * k + j)) ∧
    (w.extractLsb' 65 2 = 3#2 → ∃ e : Digits3, decodeWord w = .unpack e ∧
      ∀ k j, k < 3 → j < 6 → ((digits3List e).getD k 0).getLsbD j = w.getLsbD (6 * k + j))

/-- Operation words of the spec's tables decode to the operations they stand for, one of each unit and one with a
padding bit set. From sections 2.1 to 2.4 of `spec/95_test_vectors.md`. -/
def Obligations.WordsOfTheSpecDecode : Prop :=
  decodeWord 0x0DEADBEEFCAFEBABE#67 = .split 0xDEADBEEFCAFEBABE#64 ∧
  decodeWord 0x1FFFFFFFFFFFFFFFF#67 = .split 0xFFFFFFFFFFFFFFFF#64 ∧
  decodeWord 0x331D36BBE2DD42916#67 = .compose 19#5 ⟨22#6, 36#6, 2#6, 53#6, 45#6, 56#6, 59#6, 26#6, 19#6, 7#6⟩ ∧
  decodeWord 0x4000000000002D1A7#67 = .pack ⟨7#5, 13#5, 20#5, 5#5⟩ ∧
  decodeWord 0x6000000000001BC8A#67 = .unpack ⟨10#6, 50#6, 27#6⟩

/-- A number is rejected as an operation word exactly when it needs more than 67 bits, and otherwise it decodes as the
word it is: "bit 67 does not exist". From section 3 of `spec/30_encoding.md`. -/
def Obligations.NumbersBeyondBit66AreRejected : Prop :=
  ∀ n : Nat, (decode n = .error .bit67DoesNotExist ↔ 2 ^ 67 ≤ n) ∧
    (n < 2 ^ 67 → decode n = .ok (decodeWord (BitVec.ofNat 67 n)))

/-- The written form: every operation word, written as `0x` and 17 hexadecimal digits, is read back as the operation it
denotes. From section 3 of `spec/30_encoding.md`; capitals are the model's choice (log entry 12). -/
def Obligations.TheWrittenOperationWordReadsBack : Prop :=
  ∀ w : OpWord, (showOpWord w).length = 19 ∧ readOpWord (showOpWord w) = some (decodeWord w)

/-- The error codes are 0 for none, 1 for `E_DIGIT`, 2 for `E_QUOT`, 3 for `E_RANGE`; the result word has the error field
in bits 66 and 65 (0 for SPLIT), the payload in the result format, padding 0, and no output bit lost. From sections 1
and 3 of `spec/30_encoding.md` and section 1 of `spec/60_exceptions.md`. -/
def Obligations.ResultWordHoldsTheOutputs : Prop :=
  (ErrCode.none.code = 0#2 ∧ ErrCode.eDigit.code = 1#2 ∧ ErrCode.eQuot.code = 2#2 ∧ ErrCode.eRange.code = 3#2) ∧
  (∀ o : Outputs, (resultWord o).extractLsb' 65 2 = o.err.code) ∧
  (∀ q d, (resultWord (.splitter q d)).extractLsb' 60 5 = q ∧
    Digits10.ofBits ((resultWord (.splitter q d)).extractLsb' 0 60) = d ∧ (Outputs.splitter q d).err = .none) ∧
  (∀ w c, (resultWord (.composer w c)).extractLsb' 0 64 = w ∧ (resultWord (.composer w c)).getLsbD 64 = false) ∧
  (∀ e c, Digits3.ofBits ((resultWord (.packer e c)).extractLsb' 0 18) = e ∧
    ∀ k, 18 ≤ k → k < 65 → (resultWord (.packer e c)).getLsbD k = false) ∧
  (∀ q c, Quots4.ofBits ((resultWord (.unpacker q c)).extractLsb' 0 20) = q ∧
    ∀ k, 20 ≤ k → k < 65 → (resultWord (.unpacker q c)).getLsbD k = false)

/-- R51 (decision D3). Operand and result formats pair up: the result payload of SPLIT is the operand payload of
COMPOSE with the same fields and the other way round, and likewise PACK and UNPACK. -/
def Obligations.ResultPayloadIsTheInverseOperandPayload : Prop :=
  (∀ q d, (resultWord (.splitter q d)).extractLsb' 0 65 = (encode (.compose q d)).extractLsb' 0 65) ∧
  (∀ w c, (resultWord (.composer w c)).extractLsb' 0 65 = (encode (.split w)).extractLsb' 0 65) ∧
  (∀ e c, (resultWord (.packer e c)).extractLsb' 0 65 = (encode (.unpack e)).extractLsb' 0 65) ∧
  (∀ q c, (resultWord (.unpacker q c)).extractLsb' 0 65 = (encode (.pack q)).extractLsb' 0 65)

/-! ### SPLIT (`spec/40_splitter.md`) -/

/-- R70. SPLIT completes on every word in every state; its digits and quotient are those of the loop (`t` is the running
value: `t 0` the word, `t (k+1)` the value after the digit of weight `62 ^ k` is emitted); nothing else changes but its
own input port and the record. With its operation word, its result word and the rule's worked example. -/
def Obligations.SplitRunsThePeelingLoop : Prop :=
  (∀ (w : Word) (s : State), ∃ t : Nat → Nat, t 0 = w.toNat ∧ (∀ k, k < 10 → t (k + 1) = t k / 62) ∧ t 10 ≤ 21 ∧
    exec (.split w) s = .next { s with
      inputs := { s.inputs with s_w := .held w }
      samples := s.samples ++ [⟨.split w, .splitter (BitVec.ofNat 5 (t 10))
        ⟨BitVec.ofNat 6 (t 0 % 62), BitVec.ofNat 6 (t 1 % 62), BitVec.ofNat 6 (t 2 % 62), BitVec.ofNat 6 (t 3 % 62),
         BitVec.ofNat 6 (t 4 % 62), BitVec.ofNat 6 (t 5 % 62), BitVec.ofNat 6 (t 6 % 62), BitVec.ofNat 6 (t 7 % 62),
         BitVec.ofNat 6 (t 8 % 62), BitVec.ofNat 6 (t 9 % 62)⟩⟩] }) ∧
  (∀ w : Word, encode (.split w) = 0#2 ++ (0#1 ++ w)) ∧
  (∀ (q : QuotField) (d : Digits10), resultWord (.splitter q d) =
    0#2 ++ (q ++ (d.d9 ++ d.d8 ++ d.d7 ++ d.d6 ++ d.d5 ++ d.d4 ++ d.d3 ++ d.d2 ++ d.d1 ++ d.d0))) ∧
  encode (.split 0xFFFFFFFFFFFFFFFF#64) = 0x0FFFFFFFFFFFFFFFF#67 ∧
  (∀ s : State, ∃ t x, exec (.split 0xFFFFFFFFFFFFFFFF#64) s = .next t ∧ t.samples = s.samples ++ [x] ∧
    x.out = .splitter 21#5 ⟨15#6, 34#6, 17#6, 10#6, 6#6, 1#6, 36#6, 17#6, 42#6, 60#6⟩ ∧
    resultWord x.out = 0x15F2A46404629188F#67)

/-- The closed form of SPLIT: `d[k] = (w div 62^k) mod 62` and `q = w div 62^10`. From section 1 of
`spec/40_splitter.md` (an inference the spec marks derived). -/
def Obligations.SplitHasTheClosedForm : Prop :=
  ∀ (w : Word) (s : State), ∃ q d, Answers (.split w) s (.splitter q d) s.draws ∧
    q.toNat = w.toNat / 62 ^ 10 ∧ ∀ k, k < 10 → ((digits10List d).getD k 0).toNat = w.toNat / 62 ^ k % 62

/-- What SPLIT shows satisfies its postconditions: digits in [0,61], quotient in [0,21], and
`w = quotient * 62^10 + remainder` with the remainder below `62^10`. From section 1 of `spec/40_splitter.md` (an
inference the spec marks derived). -/
def Obligations.SplitMeetsItsPostconditions : Prop :=
  ∀ (w : Word) (s : State), ∃ q d, Answers (.split w) s (.splitter q d) s.draws ∧
    (∀ x ∈ digits10List d, x.toNat ≤ 61) ∧ q.toNat ≤ 21 ∧
    w.toNat = q.toNat * 62 ^ 10 + digits10Value d ∧ digits10Value d < 62 ^ 10

/-- SPLIT is injective and its image is exactly the canonical pairs: all digits with a quotient up to 20, and the
quotient 21 with a remainder of at most 821457390474406911. From section 1 of `spec/40_splitter.md` (an inference the
spec marks derived). -/
def Obligations.SplitIsInjectiveOntoTheCanonicalPairs : Prop :=
  (∀ w v : Word, splitQuot w = splitQuot v → splitDigits w = splitDigits v → w = v) ∧
  (∀ (q : QuotField) (d : Digits10), (∃ w : Word, splitQuot w = q ∧ splitDigits w = d) ↔
    d.wf = true ∧ (q.toNat ≤ 20 ∨ (q.toNat = 21 ∧ digits10Value d ≤ 821457390474406911)))

/-! ### COMPOSE (`spec/41_composer.md`) -/

/-- R80. COMPOSE completes on every operand in every state: the loop (`r` is the running value: `r 10` the quotient, `r k`
the value after `d[k]` is consumed), the three errors in their order with `c_w` unspecified, and nothing else changed but
its own input ports, the record and, where the output is unspecified, the count of draws. With its operation word, its
result word and the rule's worked example. -/
def Obligations.ComposeRunsHornersMethod : Prop :=
  (∀ (q : QuotField) (d : Digits10) (s : State), ∃ r : Nat → Nat, r 10 = q.toNat ∧
    (∀ k, k < 10 → r k = r (k + 1) * 62 + ((digits10List d).getD k 0).toNat) ∧
    exec (.compose q d) s = .next { s with
      inputs := { s.inputs with c_q := .held q, c_d := .held d.toBits }
      samples := s.samples ++ [⟨.compose q d,
        if ∃ x ∈ digits10List d, 62 ≤ x.toNat then
          .composer (Config.freeComposeWord s.draws (encode (.compose q d))) .eDigit
        else if 22 ≤ q.toNat then .composer (Config.freeComposeWord s.draws (encode (.compose q d))) .eQuot
        else if 2 ^ 64 ≤ r 0 then .composer (Config.freeComposeWord s.draws (encode (.compose q d))) .eRange
        else .composer (BitVec.ofNat 64 (r 0)) .none⟩]
      draws := if (∃ x ∈ digits10List d, 62 ≤ x.toNat) ∨ 22 ≤ q.toNat ∨ 2 ^ 64 ≤ r 0 then s.draws + 1 else s.draws }) ∧
  (∀ (q : QuotField) (d : Digits10), encode (.compose q d) =
    1#2 ++ (q ++ (d.d9 ++ d.d8 ++ d.d7 ++ d.d6 ++ d.d5 ++ d.d4 ++ d.d3 ++ d.d2 ++ d.d1 ++ d.d0))) ∧
  (∀ (w : Word) (c : ErrCode), resultWord (.composer w c) = c.code ++ (0#1 ++ w)) ∧
  encode (.compose 21#5 ⟨15#6, 34#6, 17#6, 10#6, 6#6, 1#6, 36#6, 17#6, 42#6, 60#6⟩) = 0x35F2A46404629188F#67 ∧
  (∀ s : State, ∃ t x,
    exec (.compose 21#5 ⟨15#6, 34#6, 17#6, 10#6, 6#6, 1#6, 36#6, 17#6, 42#6, 60#6⟩) s = .next t ∧
    t.samples = s.samples ++ [x] ∧ x.out = .composer 0xFFFFFFFFFFFFFFFF#64 .none ∧
    resultWord x.out = 0x0FFFFFFFFFFFFFFFF#67)

/-- The closed form of COMPOSE: on a well-formed operand whose value `q * 62^10 + sum of d[k] * 62^k` is below `2^64`, the
word shown is that value and the error code is 0. From section 1 of `spec/41_composer.md` (an inference the spec marks
derived). -/
def Obligations.ComposeHasTheClosedForm : Prop :=
  ∀ (q : QuotField) (d : Digits10) (s : State), d.wf = true → q.toNat ≤ 21 →
    q.toNat * 62 ^ 10 + digits10Value d < 2 ^ 64 →
    ∃ w : Word, w.toNat = q.toNat * 62 ^ 10 + digits10Value d ∧ Answers (.compose q d) s (.composer w .none) s.draws

/-- R82 (decisions D5, D6, D11). A digit field of 62 or 63 gives `E_DIGIT`, whatever the quotient; otherwise a quotient
field of 22 to 31 gives `E_QUOT`; `c_w` is unspecified in both cases, and the error does not record which field was at
fault: it is the same code for every such operand. -/
def Obligations.ComposeReportsIllFormedOperands : Prop :=
  ∀ (q : QuotField) (d : Digits10) (s : State),
    ((∃ x ∈ digits10List d, 62 ≤ x.toNat) → Answers (.compose q d) s
      (.composer (Config.freeComposeWord s.draws (encode (.compose q d))) .eDigit) (s.draws + 1)) ∧
    ((∀ x ∈ digits10List d, x.toNat ≤ 61) → 22 ≤ q.toNat → Answers (.compose q d) s
      (.composer (Config.freeComposeWord s.draws (encode (.compose q d))) .eQuot) (s.draws + 1))

/-- On a well-formed operand COMPOSE reports `E_RANGE`, with `c_w` unspecified, exactly when the quotient is 21 and the
digits have a value above 821457390474406911; that is exactly when the value is `2^64` or more. From section 2 of
`spec/41_composer.md` (in part an inference the spec marks derived, in part its decision D7). -/
def Obligations.ComposeOverflowsExactlyAboveTheLargestRemainder : Prop :=
  ∀ (q : QuotField) (d : Digits10) (s : State), d.wf = true → q.toNat ≤ 21 →
    ((2 ^ 64 ≤ q.toNat * 62 ^ 10 + digits10Value d) ↔ (q.toNat = 21 ∧ 821457390474406911 < digits10Value d)) ∧
    (q.toNat = 21 → 821457390474406911 < digits10Value d → Answers (.compose q d) s
      (.composer (Config.freeComposeWord s.draws (encode (.compose q d))) .eRange) (s.draws + 1)) ∧
    (q.toNat ≤ 20 ∨ digits10Value d ≤ 821457390474406911 →
      ∃ w : Word, Answers (.compose q d) s (.composer w .none) s.draws)

/-- COMPOSE after SPLIT: for every word, what SPLIT shows, given to COMPOSE unchanged, gives the word back with error
code 0. From section 3 of `spec/41_composer.md`, law (a) (an inference the spec marks derived). -/
def Obligations.ComposeInvertsSplit : Prop :=
  ∀ (w : Word) (s : State), ∃ q d t, Answers (.split w) s (.splitter q d) s.draws ∧ exec (.split w) s = .next t ∧
    Answers (.compose q d) t (.composer w .none) s.draws

/-- SPLIT after COMPOSE: whenever COMPOSE shows a word with error code 0, SPLIT of that word shows the pair COMPOSE was
given. From section 3 of `spec/41_composer.md`, law (b) (an inference the spec marks derived). -/
def Obligations.SplitInvertsCompose : Prop :=
  ∀ (q : QuotField) (d : Digits10) (s : State) (w : Word) (n : Nat), Answers (.compose q d) s (.composer w .none) n →
    ∀ t : State, Answers (.split w) t (.splitter q d) t.draws

/-! ### PACK (`spec/42_overflow_packer.md`) -/

/-- R90. PACK completes on every operand in every state: the composite, three peelings of it (`t` is the running value),
after which nothing is left, or `E_QUOT` with `p_e` unspecified; nothing else changes but its own input port, the record
and, where the output is unspecified, the count of draws. With its operation word, its result word and the rule's worked
example. -/
def Obligations.PackPeelsTheComposite : Prop :=
  (∀ (q : Quots4) (s : State), ∃ t : Nat → Nat,
    t 0 = q.q0.toNat + 22 * q.q1.toNat + 484 * q.q2.toNat + 10648 * q.q3.toNat ∧
    (∀ j, j < 3 → t (j + 1) = t j / 62) ∧ ((∀ x ∈ [q.q0, q.q1, q.q2, q.q3], x.toNat ≤ 21) → t 0 ≤ 234255 ∧ t 3 = 0) ∧
    exec (.pack q) s = .next { s with
      inputs := { s.inputs with p_q := .held q.toBits }
      samples := s.samples ++ [⟨.pack q,
        if ∃ x ∈ [q.q0, q.q1, q.q2, q.q3], 22 ≤ x.toNat then
          .packer (Digits3.ofBits (Config.freePackDigits s.draws (encode (.pack q)))) .eQuot
        else .packer ⟨BitVec.ofNat 6 (t 0 % 62), BitVec.ofNat 6 (t 1 % 62), BitVec.ofNat 6 (t 2 % 62)⟩ .none⟩]
      draws := if ∃ x ∈ [q.q0, q.q1, q.q2, q.q3], 22 ≤ x.toNat then s.draws + 1 else s.draws }) ∧
  (∀ q : Quots4, encode (.pack q) = 2#2 ++ (0#45 ++ (q.q3 ++ q.q2 ++ q.q1 ++ q.q0))) ∧
  (∀ (e : Digits3) (c : ErrCode), resultWord (.packer e c) = c.code ++ (0#47 ++ (e.e2 ++ e.e1 ++ e.e0))) ∧
  encode (.pack ⟨21#5, 21#5, 21#5, 21#5⟩) = 0x400000000000AD6B5#67 ∧
  (∀ s : State, ∃ t x, exec (.pack ⟨21#5, 21#5, 21#5, 21#5⟩) s = .next t ∧ t.samples = s.samples ++ [x] ∧
    x.out = .packer ⟨19#6, 58#6, 60#6⟩ .none ∧ resultWord x.out = 0x0000000000003CE93#67)

/-- The closed form and bounds of PACK: the three digits carry the composite exactly, `e[2]` is at most 60. From section 1
of `spec/42_overflow_packer.md` (an inference the spec marks derived). -/
def Obligations.PackDigitsCarryTheComposite : Prop :=
  ∀ (q : Quots4) (s : State), q.wf = true → ∃ e : Digits3, Answers (.pack q) s (.packer e .none) s.draws ∧
    e.e0.toNat = quots4Value q % 62 ∧ e.e1.toNat = quots4Value q / 62 % 62 ∧ e.e2.toNat = quots4Value q / 3844 ∧
    quots4Value q = e.e0.toNat + 62 * e.e1.toNat + 3844 * e.e2.toNat ∧ e.e2.toNat ≤ 60 ∧ quots4Value q ≤ 234255

/-- R92 (decisions D5, D6). If any of the four quotient fields holds 22 to 31, PACK reports `E_QUOT` and `p_e` is
unspecified; PACK reports `E_QUOT` in no other case and has no `E_RANGE`, the composite of in-range quotients being below
`62^3`, while fields up to 31 could reach 345805, more than three digits carry. -/
def Obligations.PackReportsIllFormedQuotients : Prop :=
  ∀ (q : Quots4) (s : State),
    ((∃ x ∈ [q.q0, q.q1, q.q2, q.q3], 22 ≤ x.toNat) → Answers (.pack q) s
      (.packer (Digits3.ofBits (Config.freePackDigits s.draws (encode (.pack q)))) .eQuot) (s.draws + 1)) ∧
    ((∀ x ∈ [q.q0, q.q1, q.q2, q.q3], x.toNat ≤ 21) → quots4Value q < 62 ^ 3 ∧
      ∃ e, Answers (.pack q) s (.packer e .none) s.draws) ∧
    quots4Value ⟨31#5, 31#5, 31#5, 31#5⟩ = 345805 ∧ 62 ^ 3 - 1 < 345805

/-- PACK is injective on well-formed operands and its image is the canonical triples, those of value at most 234255. From
section 3 of `spec/42_overflow_packer.md` (an inference the spec marks derived). -/
def Obligations.PackIsInjectiveOntoTheCanonicalTriples : Prop :=
  (∀ q p : Quots4, q.wf = true → p.wf = true → packResult q = packResult p → q = p) ∧
  (∀ e : Digits3, (∃ q : Quots4, q.wf = true ∧ packResult q = ⟨.none, some e⟩) ↔
    e.wf = true ∧ e.e0.toNat + 62 * e.e1.toNat + 3844 * e.e2.toNat ≤ 234255)

/-! ### UNPACK (`spec/43_overflow_unpacker.md`) -/

/-- R100. UNPACK completes on every operand in every state: Horner's method (`c` is the running value, `c j` after `e[j]` is
consumed), then the four divisions (`m` is what is left: `m 4` the composite, `m i` after the division by `22 ^ i`), after
which nothing is left; `E_DIGIT` with `u_q` unspecified, or `E_RANGE` with the outputs as computed; nothing else changes
but its own input port, the record and, where the output is unspecified, the count of draws. With its operation word, its
result word and the rule's worked example. -/
def Obligations.UnpackRunsHornerAndDivides : Prop :=
  (∀ (e : Digits3) (s : State), ∃ c m : Nat → Nat, c 3 = 0 ∧
    (∀ j, j < 3 → c j = c (j + 1) * 62 + ((digits3List e).getD j 0).toNat) ∧
    m 4 = c 0 ∧ (∀ i, i < 4 → m i = m (i + 1) % 22 ^ i) ∧ m 0 = 0 ∧
    exec (.unpack e) s = .next { s with
      inputs := { s.inputs with u_e := .held e.toBits }
      samples := s.samples ++ [⟨.unpack e,
        if ∃ x ∈ digits3List e, 62 ≤ x.toNat then
          .unpacker (Quots4.ofBits (Config.freeUnpackQuots s.draws (encode (.unpack e)))) .eDigit
        else .unpacker
          ⟨BitVec.ofNat 5 (m 1 / 22 ^ 0), BitVec.ofNat 5 (m 2 / 22 ^ 1), BitVec.ofNat 5 (m 3 / 22 ^ 2),
           BitVec.ofNat 5 (m 4 / 22 ^ 3)⟩
          (if 234256 ≤ c 0 then .eRange else .none)⟩]
      draws := if ∃ x ∈ digits3List e, 62 ≤ x.toNat then s.draws + 1 else s.draws }) ∧
  (∀ e : Digits3, encode (.unpack e) = 3#2 ++ (0#47 ++ (e.e2 ++ e.e1 ++ e.e0))) ∧
  (∀ (q : Quots4) (c : ErrCode), resultWord (.unpacker q c) = c.code ++ (0#45 ++ (q.q3 ++ q.q2 ++ q.q1 ++ q.q0))) ∧
  encode (.unpack ⟨19#6, 58#6, 60#6⟩) = 0x6000000000003CE93#67 ∧
  (∀ s : State, ∃ t x, exec (.unpack ⟨19#6, 58#6, 60#6⟩) s = .next t ∧ t.samples = s.samples ++ [x] ∧
    x.out = .unpacker ⟨21#5, 21#5, 21#5, 21#5⟩ .none ∧ resultWord x.out = 0x000000000000AD6B5#67)

/-- The closed form of UNPACK on well-formed digits: the base-22 digits of the composite `c0`, with `q[3] = c0 div 10648`
unreduced; they carry `c0` exactly, and `q[3]` is at most 21 exactly when `c0` is at most 234255. From section 1 of
`spec/43_overflow_unpacker.md` (an inference the spec marks derived). -/
def Obligations.UnpackHasTheClosedForm : Prop :=
  ∀ (e : Digits3) (s : State), e.wf = true → ∃ q c, Answers (.unpack e) s (.unpacker q c) s.draws ∧
    q.q3.toNat = digits3Value e / 10648 ∧ q.q2.toNat = digits3Value e % 10648 / 484 ∧
    q.q1.toNat = digits3Value e % 484 / 22 ∧ q.q0.toNat = digits3Value e % 22 ∧
    digits3Value e = quots4Value q ∧ (q.q3.toNat ≤ 21 ↔ digits3Value e ≤ 234255)

/-- R102 (decisions D5, D6). If any of the three digit fields holds 62 or 63, UNPACK reports `E_DIGIT` and `u_q` is
unspecified; it reports `E_DIGIT` in no other case, and a host that takes the trailer's digits from the alphabet never
presents such a field. -/
def Obligations.UnpackReportsIllFormedDigits : Prop :=
  ∀ (e : Digits3) (s : State),
    ((∃ x ∈ digits3List e, 62 ≤ x.toNat) → Answers (.unpack e) s
      (.unpacker (Quots4.ofBits (Config.freeUnpackQuots s.draws (encode (.unpack e)))) .eDigit) (s.draws + 1)) ∧
    ((∀ x ∈ digits3List e, x.toNat ≤ 61) → ∃ q c, c ≠ .eDigit ∧ Answers (.unpack e) s (.unpacker q c) s.draws) ∧
    (∀ cs : List Char, cs.length = 43 → (∀ c ∈ cs, charToDigit c ≠ none) →
      ∀ x ∈ digits3List (trailerDigits cs), x.toNat ≤ 61)

/-- R103 (decision D8). On well-formed digits of value 234256 or more UNPACK reports `E_RANGE` and shows the values of the
source's algorithm: `q[3] = 22`, and in the other fields the base-22 digits of the value less 234256, `q[2]` being at most
8; below 234256 it reports no error. There are 4072 such triples, one for each value from 234256 to 238327. -/
def Obligations.UnpackReportsUnusedTrailersAndShowsTheirQuotients : Prop :=
  (∀ (e : Digits3) (s : State), e.wf = true →
    (234256 ≤ digits3Value e → ∃ q : Quots4, Answers (.unpack e) s (.unpacker q .eRange) s.draws ∧
      digits3Value e ≤ 238327 ∧ q.q3.toNat = 22 ∧ q.q2.toNat = (digits3Value e - 234256) / 484 ∧ q.q2.toNat ≤ 8 ∧
      q.q1.toNat = (digits3Value e - 234256) % 484 / 22 ∧ q.q1.toNat ≤ 21 ∧
      q.q0.toNat = (digits3Value e - 234256) % 22 ∧ q.q0.toNat ≤ 21) ∧
    (digits3Value e < 234256 → ∃ q : Quots4, Answers (.unpack e) s (.unpacker q .none) s.draws)) ∧
  (∀ n, 234256 ≤ n → n ≤ 238327 → ∃ e : Digits3, e.wf = true ∧ digits3Value e = n ∧
    ∀ f : Digits3, f.wf = true → digits3Value f = n → f = e) ∧
  238327 + 1 - 234256 = 4072

/-- UNPACK after PACK: for every well-formed quadruple, what PACK shows, given to UNPACK unchanged, gives the quadruple
back with error code 0. From section 3 of `spec/43_overflow_unpacker.md`, law (a) (an inference the spec marks derived). -/
def Obligations.UnpackInvertsPack : Prop :=
  ∀ (q : Quots4) (s : State), q.wf = true → ∃ e t, Answers (.pack q) s (.packer e .none) s.draws ∧
    exec (.pack q) s = .next t ∧ Answers (.unpack e) t (.unpacker q .none) s.draws

/-- PACK after UNPACK: where UNPACK reports no error, PACK of what it shows gives the triple back with error code 0; where
UNPACK reports `E_RANGE`, PACK of what it shows reports `E_QUOT`. From section 3 of `spec/43_overflow_unpacker.md`, laws
(b) and (c) (an inference the spec marks derived). -/
def Obligations.PackInvertsUnpackAndRefusesUnusedTrailers : Prop :=
  ∀ (e : Digits3) (s : State) (q : Quots4) (n : Nat),
    (Answers (.unpack e) s (.unpacker q .none) n → ∀ t : State, Answers (.pack q) t (.packer e .none) t.draws) ∧
    (Answers (.unpack e) s (.unpacker q .eRange) n → ∀ t : State, ∃ p, Answers (.pack q) t (.packer p .eQuot) (t.draws + 1))

/-! ### Errors, independence, frames (`spec/60_exceptions.md`, `spec/10_state.md`, `spec/20_memory.md`) -/

/-- R136 (decision D11). Every operation reports at most one code, the first of `E_DIGIT`, `E_QUOT`, `E_RANGE` whose
condition holds; `E_RANGE` is reported only on well-formed operands. -/
def Obligations.TheFirstConditionThatHoldsIsReported : Prop :=
  ∀ (i : Instr) (s : State), ∃ t x, exec i s = .next t ∧ t.samples = s.samples ++ [x] ∧ x.op = i ∧
    (x.out.err = .eDigit ↔
      match i with
      | .split _ => False
      | .compose _ d => ∃ y ∈ digits10List d, 62 ≤ y.toNat
      | .pack _ => False
      | .unpack e => ∃ y ∈ digits3List e, 62 ≤ y.toNat) ∧
    (x.out.err = .eQuot ↔
      match i with
      | .split _ => False
      | .compose q d => (∀ y ∈ digits10List d, y.toNat ≤ 61) ∧ 22 ≤ q.toNat
      | .pack q => ∃ y ∈ [q.q0, q.q1, q.q2, q.q3], 22 ≤ y.toNat
      | .unpack _ => False) ∧
    (x.out.err = .eRange ↔ i.wf = true ∧
      match i with
      | .split _ => False
      | .compose q d => 2 ^ 64 ≤ q.toNat * 62 ^ 10 + digits10Value d
      | .pack _ => False
      | .unpack e => 234256 ≤ digits3Value e)

/-- The frame of every operation, with or without an error (R138, R36, R28): it answers a next state in which the host's
list of moves is the same, the earlier samples stand unchanged before one new one, the input ports of the other three
units are as they were, its own ports hold its operand, and the count of draws is one higher if its data is unspecified
and else the same. Rests on section 4 of `spec/60_exceptions.md`, section 3 of `spec/20_memory.md` and section 2 of
`spec/10_state.md`; the record and the count of draws are the model's (log entries 1 and 5). -/
def Obligations.AnOperationTouchesOnlyItsOwnUnit : Prop :=
  ∀ (i : Instr) (s : State), ∃ t x, exec i s = .next t ∧ t.script = s.script ∧ t.samples = s.samples ++ [x] ∧ x.op = i ∧
    t.draws = (if unspecifiedData i then s.draws + 1 else s.draws) ∧
    (match i with
      | .split w => t.inputs.s_w = .held w
      | .compose q d => t.inputs.c_q = .held q ∧ t.inputs.c_d = .held d.toBits
      | .pack q => t.inputs.p_q = .held q.toBits
      | .unpack e => t.inputs.u_e = .held e.toBits) ∧
    (i.coreUnit ≠ .splitter → t.inputs.s_w = s.inputs.s_w) ∧
    (i.coreUnit ≠ .composer → t.inputs.c_q = s.inputs.c_q ∧ t.inputs.c_d = s.inputs.c_d) ∧
    (i.coreUnit ≠ .packer → t.inputs.p_q = s.inputs.p_q) ∧
    (i.coreUnit ≠ .unpacker → t.inputs.u_e = s.inputs.u_e)

/-- R20 (decisions D1, D4). What an operation shows is determined by its own operand: from any two states, whatever was
sampled before and whatever stands on any port, the two samples have the same error code and, unless a rule declares the
data unspecified, the same data. -/
def Obligations.OutputsDependOnTheirOwnOperandAlone : Prop :=
  ∀ (i : Instr) (s s' : State), ∃ t t' x x', exec i s = .next t ∧ exec i s' = .next t' ∧
    t.samples = s.samples ++ [x] ∧ t'.samples = s'.samples ++ [x'] ∧ x.op = i ∧ x'.op = i ∧
    x.out.err = x'.out.err ∧ (unspecifiedData i = false → x.out = x'.out)

/-- Operations in either order: each shows what it shows in the other order, the count of draws is the same, and if they
are of different units the ports are the same in the end. Rests on section 5 of `spec/20_memory.md` and section 2 of
`spec/10_state.md`. -/
def Obligations.OperationsDoNotInteract : Prop :=
  ∀ (i j : Instr) (s : State), ∃ t t' x y x' y', runOps [i, j] s = .next t ∧ runOps [j, i] s = .next t' ∧
    t.samples = s.samples ++ [x, y] ∧ t'.samples = s.samples ++ [y', x'] ∧
    x.op = i ∧ y.op = j ∧ x.Agrees x' ∧ y.Agrees y' ∧
    t.draws = t'.draws ∧ t.script = t'.script ∧ (i.coreUnit ≠ j.coreUnit → t.inputs = t'.inputs)

/-! ### Steps and the host's moves (`spec/70_reset_and_hazards.md`) -/

/-- A step runs the decoded operation: when the host's next move is an operation word, the step is `exec` of what the word
decodes to, with that move taken off the list; for the word of any operation it is `exec` of that operation. The command
port is the model's form of the spec's sentence that a platform may put the four units behind one command port (log
entry 2). -/
def Obligations.StepRunsTheDecodedOperation : Prop :=
  (∀ (s : State) (w : OpWord) (ms : List HostMove), s.script = .command w :: ms →
    step s = exec (decodeWord w) { s with script := ms }) ∧
  (∀ (s : State) (i : Instr) (ms : List HostMove), s.script = .command (encode i) :: ms →
    step s = exec i { s with script := ms })

/-- From the state after reset the first operation placed runs as in any other state: for every operation, its word placed
as the host's next move is fetched and run by the very next step. From section 2 of `spec/70_reset_and_hazards.md`; how an
operation is placed is the model's (log entry 2). -/
def Obligations.ThePlacedOperationRunsNext : Prop :=
  ∀ (i : Instr) (s : State), step (s.withFetchWord 67 (encode i).toNat) = exec i s ∧
    step (State.reset.withFetchWord 72 (encode i).toNat) = exec i State.reset

/-- A sample of a unit whose inputs are held runs the operation of that unit on the operand its ports hold, and leaves the
ports as they are. Rests on section 5 of `spec/20_memory.md` ("an output sampled at a moment when the inputs hold value
`x` is the function of `x`") and on the list of host moves in section 5 of `spec/70_reset_and_hazards.md`. -/
def Obligations.SamplingReadsTheHeldOperand : Prop :=
  ∀ (s : State) (ms : List HostMove),
    (∀ w, s.script = .sample .splitter :: ms → s.inputs.s_w = .held w →
      step s = exec (.split w) { s with script := ms }) ∧
    (∀ q d, s.script = .sample .composer :: ms → s.inputs.c_q = .held q → s.inputs.c_d = .held d →
      step s = exec (.compose q (Digits10.ofBits d)) { s with script := ms }) ∧
    (∀ q, s.script = .sample .packer :: ms → s.inputs.p_q = .held q →
      step s = exec (.pack (Quots4.ofBits q)) { s with script := ms }) ∧
    (∀ e, s.script = .sample .unpacker :: ms → s.inputs.u_e = .held e →
      step s = exec (.unpack (Digits3.ofBits e)) { s with script := ms }) ∧
    (∀ u t, s.script = .sample u :: ms → step s = .next t → t.inputs = s.inputs)

/-- Inputs not held give no value: if the host samples a unit some input port of which is undriven or changing, the step
is the fault `inputsNotHeld` of that unit, and a step stops in that fault in no other case. Rests on section 3 of
`spec/70_reset_and_hazards.md` (decision D20; the fault is the model's form of "stuck", log entry 4). -/
def Obligations.NoValueIsSampledFromInputsNotHeld : Prop :=
  ∀ (s : State) (u : CoreUnit), step s = .fault (.inputsNotHeld u) ↔
    (∃ ms, s.script = .sample u :: ms) ∧
      match u with
      | .splitter => ∀ w, s.inputs.s_w ≠ .held w
      | .composer => (∀ q, s.inputs.c_q ≠ .held q) ∨ (∀ d, s.inputs.c_d ≠ .held d)
      | .packer => ∀ q, s.inputs.p_q ≠ .held q
      | .unpacker => ∀ e, s.inputs.u_e ≠ .held e

/-- Driving, changing and releasing a port: the step answers a next state in which that port alone has changed, the move is
off the list, and nothing is sampled, counted or latched. Rests on section 5 of `spec/70_reset_and_hazards.md` and section
3 of `spec/20_memory.md`. -/
def Obligations.AHostMoveTouchesItsPortAlone : Prop :=
  ∀ (s : State) (ms : List HostMove),
    (∀ v, s.script = .drive (.s_w v) :: ms →
      step s = .next { s with script := ms, inputs := { s.inputs with s_w := .held v } }) ∧
    (∀ v, s.script = .drive (.c_q v) :: ms →
      step s = .next { s with script := ms, inputs := { s.inputs with c_q := .held v } }) ∧
    (∀ v, s.script = .drive (.c_d v) :: ms →
      step s = .next { s with script := ms, inputs := { s.inputs with c_d := .held v } }) ∧
    (∀ v, s.script = .drive (.p_q v) :: ms →
      step s = .next { s with script := ms, inputs := { s.inputs with p_q := .held v } }) ∧
    (∀ v, s.script = .drive (.u_e v) :: ms →
      step s = .next { s with script := ms, inputs := { s.inputs with u_e := .held v } }) ∧
    (∀ p, s.script = .change p :: ms → ∃ t, step s = .next t ∧ t.script = ms ∧ t.samples = s.samples ∧
      t.draws = s.draws ∧
      t.inputs.s_w = (if p = .s_w then .changing else s.inputs.s_w) ∧
      t.inputs.c_q = (if p = .c_q then .changing else s.inputs.c_q) ∧
      t.inputs.c_d = (if p = .c_d then .changing else s.inputs.c_d) ∧
      t.inputs.p_q = (if p = .p_q then .changing else s.inputs.p_q) ∧
      t.inputs.u_e = (if p = .u_e then .changing else s.inputs.u_e)) ∧
    (∀ p, s.script = .release p :: ms → ∃ t, step s = .next t ∧ t.script = ms ∧ t.samples = s.samples ∧
      t.draws = s.draws ∧
      t.inputs.s_w = (if p = .s_w then .undriven else s.inputs.s_w) ∧
      t.inputs.c_q = (if p = .c_q then .undriven else s.inputs.c_q) ∧
      t.inputs.c_d = (if p = .c_d then .undriven else s.inputs.c_d) ∧
      t.inputs.p_q = (if p = .p_q then .undriven else s.inputs.p_q) ∧
      t.inputs.u_e = (if p = .u_e then .undriven else s.inputs.u_e))

/-- The only stops: a step stops exactly when the host's list of moves is empty (the run is over) or its next move samples
a unit whose inputs are not held; it never refuses, and no operation stops. The two fault names are the model's (log
entries 3 and 4). -/
def Obligations.TheOnlyStopsAreTheEndAndUnheldInputs : Prop :=
  ∀ s : State,
    (step s = .fault .runEnded ↔ s.script = []) ∧
    (∀ r, step s ≠ .refused r) ∧
    (∀ m ms, s.script = m :: ms → (∃ t, step s = .next t) ∨
      ∃ u, m = .sample u ∧ s.inputs.operand u = none ∧ step s = .fault (.inputsNotHeld u)) ∧
    (∀ i, ∃ t, exec i s = .next t)

/-- Every step that answers a next state takes exactly one move off the host's list and loses no sample: the record before
it is a beginning of the record after it, longer by one exactly for a sample or an operation word. The list and the record
are the model's form of section 5 of `spec/70_reset_and_hazards.md` (log entries 2 and 5). -/
def Obligations.AStepTakesOneMoveAndKeepsTheRecord : Prop :=
  ∀ s t : State, step s = .next t → ∃ m, s.script = m :: t.script ∧
    ((∃ x, t.samples = s.samples ++ [x] ∧ ((m = .sample x.op.coreUnit) ∨ ∃ w, m = .command w ∧ x.op = decodeWord w)) ∨
      (t.samples = s.samples ∧ t.draws = s.draws ∧ (∀ u, m ≠ .sample u) ∧ ∀ w, m ≠ .command w))

/-! ### Invariants of every step -/

/-- Every step keeps the record genuine: each recorded sample shows the error code its operand calls for and, where the
data is specified, data that satisfy the unit's arithmetic contract (the word is the pair's value, the digits carry the
composite, and so on), whatever state the step starts in. -/
def Obligations.EveryStepKeepsTheRecordGenuine : Prop :=
  ∀ s t : State, s.AllGenuine → step s = .next t → t.AllGenuine

/-- Every step keeps the count of draws equal to the number of recorded samples whose data is unspecified, so each
unspecified output has a draw of its own. The count is the model's own field (log entry 1). -/
def Obligations.EveryStepKeepsTheDrawsCounted : Prop :=
  ∀ s t : State, s.DrawsCounted → step s = .next t → t.DrawsCounted

/-- The state after reset meets both invariants. That the record is empty and the count of draws 0 after reset is the
model's choice (log entries 2 and 1): the block has no record and no count. -/
def Obligations.ResetMeetsTheInvariants : Prop := State.reset.AllGenuine ∧ State.reset.DrawsCounted

/-- Reset leaves nothing: all five input ports are undriven, the host has sampled nothing and nothing is pending, so a sample of any
unit before its inputs are driven has no value. Rests on section 3 of `spec/10_state.md` and section 1 of
`spec/70_reset_and_hazards.md`; that the ports start undriven and the list empty is the model's (log entry 2). -/
def Obligations.ResetLeavesNothing : Prop :=
  State.reset.samples = [] ∧ State.reset.script = [] ∧
  State.reset.inputs = ⟨.undriven, .undriven, .undriven, .undriven, .undriven⟩ ∧
  (∀ u, State.reset.inputs.operand u = none) ∧
  (∀ u ms, step (State.reset.setScript (.sample u :: ms)) = .fault (.inputsNotHeld u)) ∧
  step State.reset = .fault .runEnded

/-! ### The host protocol (`spec/45_host_alphabet_codec.md`) -/

/-- `digitToChar` is the source's formula on characters with consecutive codes, and gives no character above 61 (a fault
of the host, U8). The codes are ASCII's, which the spec supplies from general knowledge (log entry 6). -/
def Obligations.AlphabetFollowsTheThreeRuns : Prop :=
  ∀ d : Nat, digitToChar d =
    if d < 10 then some (Char.ofNat ('0'.toNat + d))
    else if d < 36 then some (Char.ofNat ('A'.toNat + (d - 10)))
    else if d < 62 then some (Char.ofNat ('a'.toNat + (d - 36)))
    else none

/-- `charToDigit` by the three character ranges, failing outside them. ASCII codes as in log entry 6. -/
def Obligations.CharToDigitTestsTheThreeRanges : Prop :=
  ∀ c : Char, charToDigit c =
    if '0' ≤ c ∧ c ≤ '9' then some (c.toNat - '0'.toNat)
    else if 'A' ≤ c ∧ c ≤ 'Z' then some (c.toNat - 'A'.toNat + 10)
    else if 'a' ≤ c ∧ c ≤ 'z' then some (c.toNat - 'a'.toNat + 36)
    else none

/-- R112. The alphabet is a bijection: both ways round, on all 62 digits and on every character that has a digit. -/
def Obligations.TheAlphabetIsABijection : Prop :=
  (∀ d, d ≤ 61 → ∃ c, digitToChar d = some c ∧ charToDigit c = some d) ∧
  (∀ c d, charToDigit c = some d → d ≤ 61 ∧ digitToChar d = some c)

/-- R113. Encode always succeeds with 43 characters of the alphabet, laid out as the source says: character `10i + k` is the digit
of weight `62^k` of word `w[i]` that SPLIT shows, and character `40 + j` the digit of weight `62^j` that PACK shows. -/
def Obligations.EncodeIsTotalAndLaidOutInSpans : Prop :=
  ∀ v : Value256, ∃ s : List Char, encode256 v = .ok s ∧ s.length = 43 ∧
    (∀ c ∈ s, ∃ d, charToDigit c = some d) ∧
    (∀ i k, i < 4 → k < 10 →
      s[10 * i + k]? = digitToChar ((digits10List (splitDigits ([v.w0, v.w1, v.w2, v.w3].getD i 0))).getD k 0).toNat ∧
      s[10 * i + k]? = digitToChar (([v.w0, v.w1, v.w2, v.w3].getD i 0).toNat / 62 ^ k % 62)) ∧
    (∃ e, packResult (splitQuots v) = ⟨.none, some e⟩ ∧
      ∀ j, j < 3 → s[40 + j]? = digitToChar ((digits3List e).getD j 0).toNat ∧
        s[40 + j]? = digitToChar
          ((v.w0.toNat / 62 ^ 10 + 22 * (v.w1.toNat / 62 ^ 10) + 484 * (v.w2.toNat / 62 ^ 10) +
            10648 * (v.w3.toNat / 62 ^ 10)) / 62 ^ j % 62))

/-- The round trip: decoding the encoding of any value gives the value, whatever order the characters are examined in
and whatever the host answers on strings that are not canonical; every unit reports error code 0 on the way; encoding what
a canonical string decodes to gives the string; and the `62^43` strings exceed the `2^256` values by 2.13 per cent, a factor
between 1.0213 and 1.0214, that is, between the 33rd and the 32nd root of 2: `62^43` is about `2^256.03`. From section 4 of `spec/45_host_alphabet_codec.md`; that every unit reports error code 0 on an
encoding and the four words come back is an inference the spec marks derived. -/
def Obligations.DecodeOfEncodeIsTheValue : Prop :=
  (∀ (order : List Nat) (onRange : List Char → DecodeOutcome), ScanOrder order →
    ∀ v : Value256, ∃ s, encode256 v = .ok s ∧ decode256 order onRange s = .value v ∧
      packErr (splitQuots v) = .none ∧ unpackErr (trailerDigits s) = .none ∧
      (∀ i, i < 4 → composeErr ([splitQuot v.w0, splitQuot v.w1, splitQuot v.w2, splitQuot v.w3].getD i 0)
        (wordDigits s i) = .none) ∧
      ∀ v', decode256 order onRange s = .value v' → encode256 v' = .ok s) ∧
  2 ^ 256 * 10213 ≤ 62 ^ 43 * 10000 ∧ 62 ^ 43 * 10000 < 2 ^ 256 * 10214 ∧
  10000 ^ 33 * 2 < 10213 ^ 33 ∧ 10214 ^ 32 < 10000 ^ 32 * 2

/-- The length check comes first: a string that is not exactly 43 characters is `WrongLength`, whatever it holds. In any order
of the 43 positions, a string is `WrongLength` exactly if it is of another length, but for one exception that the spec
leaves open: 43 characters of the alphabet that encode no value, on which the host itself answers `WrongLength` (log
entry 9). Rests on section 4 of `spec/45_host_alphabet_codec.md`. -/
def Obligations.OnlyTheLengthGivesWrongLength : Prop :=
  ∀ (order : List Nat) (onRange : List Char → DecodeOutcome) (s : List Char),
    (s.length ≠ 43 → decode256 order onRange s = .error .wrongLength) ∧
    (ScanOrder order → (decode256 order onRange s = .error .wrongLength ↔ s.length ≠ 43 ∨
      (s.length = 43 ∧ (∀ c ∈ s, charToDigit c ≠ none) ∧ (∀ v, encode256 v ≠ .ok s) ∧
        onRange s = .error .wrongLength)))

/-- Which invalid character is reported: in any order of the 43 positions, one of the invalid ones, with its position and
itself; hence the invalid one if there is just one; and in ascending order the leftmost. Rests on section 4 of
`spec/45_host_alphabet_codec.md` (decision D15). -/
def Obligations.AnInvalidCharacterIsReportedAtItsPosition : Prop :=
  ∀ (order : List Nat) (onRange : List Char → DecodeOutcome) (s : List Char), ScanOrder order → s.length = 43 →
    (∃ c ∈ s, charToDigit c = none) →
    (∃ p c, decode256 order onRange s = .error (.invalidSymbol p c) ∧ s[p]? = some c ∧ charToDigit c = none) ∧
    (∃ p c, decode256 ascendingOrder onRange s = .error (.invalidSymbol p c) ∧ s[p]? = some c ∧ charToDigit c = none ∧
      ∀ p' c', p' < p → s[p']? = some c' → charToDigit c' ≠ none)

/-- Strings of 43 characters over the alphabet: a canonical one decodes to the value it encodes; one that is not canonical
gets whatever `HOST_ON_RANGE_ERR` answers, which is open. Rests on section 4 of `spec/45_host_alphabet_codec.md`
(decision D16). -/
def Obligations.StringsThatAreNotCanonicalAreLeftOpen : Prop :=
  ∀ (order : List Nat) (onRange : List Char → DecodeOutcome) (s : List Char), ScanOrder order → s.length = 43 →
    (∀ c ∈ s, charToDigit c ≠ none) →
    (∃ v, encode256 v = .ok s ∧ decode256 order onRange s = .value v) ∨
      ((∀ v, encode256 v ≠ .ok s) ∧ decode256 order onRange s = onRange s)

/-- The pseudo-operation ENCODE256 on the block: its five operations run from any state, every error code is 0, and the
string read from the five samples is the encoding. Rests on section 7 of `spec/30_encoding.md` and section 3 of
`spec/45_host_alphabet_codec.md`. -/
def Obligations.TheEncodeMacroRunsOnTheBlock : Prop :=
  ∀ (v : Value256) (s : State), ∃ t xs, runOps (encode256Ops v) s = .next t ∧ t.samples = s.samples ++ xs ∧
    xs.map Sample.op = encode256Ops v ∧ (∀ x ∈ xs, x.Usable) ∧ t.draws = s.draws ∧
    stringOfSamples xs = encode256 v

/-- The pseudo-operation DECODE256 on the block, on the encoding of a value: its five operations run from any state, every
error code is 0, and the four words the composer shows are the value's. Rests on section 7 of `spec/30_encoding.md` and
section 4 of `spec/45_host_alphabet_codec.md`. -/
def Obligations.TheDecodeMacroRunsOnTheBlock : Prop :=
  ∀ (v : Value256) (s : State), ∃ cs t x xs, encode256 v = .ok cs ∧ runOps (decode256Ops cs) s = .next t ∧
    t.samples = s.samples ++ x :: xs ∧ (∀ y ∈ x :: xs, y.Usable) ∧ t.draws = s.draws ∧
    xs.map Sample.out =
      [.composer v.w0 .none, .composer v.w1 .none, .composer v.w2 .none, .composer v.w3 .none]

/-- The pseudo-operation DECODE256 on the block, on any string of 43 characters over the alphabet: its five operations run
from any state, and the four COMPOSEs take the quotients UNPACK shows. UNPACK reports `E_RANGE`, and the COMPOSE of word
3 reports `E_QUOT`, exactly on a trailer of value 234256 or more; the COMPOSE of word `i` reports `E_RANGE` exactly if
its quotient is 21 and its digits exceed 821457390474406911; no other code is reported. All five codes are 0 exactly if
the string is the encoding of a value. From section 4 of `spec/45_host_alphabet_codec.md` (in part inferences the spec
marks derived) and section 7 of `spec/30_encoding.md`. -/
def Obligations.TheDecodeMacroRunsOnEveryStringOverTheAlphabet : Prop :=
  ∀ (cs : List Char) (s : State), cs.length = 43 → (∀ c ∈ cs, charToDigit c ≠ none) →
    ∃ t u x0 x1 x2 x3 q, runOps (decode256Ops cs) s = .next t ∧ t.samples = s.samples ++ [u, x0, x1, x2, x3] ∧
      [u, x0, x1, x2, x3].map Sample.op = [.unpack (trailerDigits cs), .compose q.q0 (wordDigits cs 0),
        .compose q.q1 (wordDigits cs 1), .compose q.q2 (wordDigits cs 2), .compose q.q3 (wordDigits cs 3)] ∧
      u.out = .unpacker q u.out.err ∧
      (∀ y ∈ [u, x0, x1, x2, x3], y.out.err ≠ .eDigit) ∧ (∀ y ∈ [u, x0, x1, x2], y.out.err ≠ .eQuot) ∧
      (u.out.err = .eRange ↔ 234256 ≤ digits3Value (trailerDigits cs)) ∧
      (x3.out.err = .eQuot ↔ 234256 ≤ digits3Value (trailerDigits cs)) ∧
      (x0.out.err = .eRange ↔ q.q0 = 21#5 ∧ 821457390474406911 < digits10Value (wordDigits cs 0)) ∧
      (x1.out.err = .eRange ↔ q.q1 = 21#5 ∧ 821457390474406911 < digits10Value (wordDigits cs 1)) ∧
      (x2.out.err = .eRange ↔ q.q2 = 21#5 ∧ 821457390474406911 < digits10Value (wordDigits cs 2)) ∧
      (x3.out.err = .eRange ↔ q.q3 = 21#5 ∧ 821457390474406911 < digits10Value (wordDigits cs 3)) ∧
      ((∀ y ∈ [u, x0, x1, x2, x3], y.Usable) ↔ ∃ v, encode256 v = .ok cs)
end

