-- ==== Sys2Proof/Laws/Bits.lean ====
section
/-!
SUPPORT. The bit layouts: what a field of a concatenation is, and that a group of fields and its bits determine each
other (R46, R48). The widths are explicit arguments, since `simp` does not find `54 + 6` in `60`.
-/

namespace Sys2Proof

/-- A slice that lies in the low part of a concatenation. -/
theorem extract_append_low (m n k l : Nat) (a : BitVec m) (b : BitVec n) (h : k + l ≤ n) :
    (a ++ b).extractLsb' k l = b.extractLsb' k l := by
  ext j hj
  simp only [BitVec.getElem_extractLsb', BitVec.getLsbD_append]
  rw [if_pos (by omega)]

/-- A slice that lies in the high part of a concatenation. -/
theorem extract_append_high (m n k l : Nat) (a : BitVec m) (b : BitVec n) (h : n ≤ k) :
    (a ++ b).extractLsb' k l = a.extractLsb' (k - n) l := by
  ext j hj
  simp only [BitVec.getElem_extractLsb', BitVec.getLsbD_append]
  rw [if_neg (by omega)]
  congr 1
  omega

/-- Two neighbouring slices, joined. -/
theorem append_extract (w k l m : Nat) (x : BitVec w) :
    x.extractLsb' (k + l) m ++ x.extractLsb' k l = (x.extractLsb' k (m + l)) := by
  ext j hj
  simp only [BitVec.getElem_extractLsb', BitVec.getElem_append]
  split <;> congr 1
  omega

theorem digits10_ofBits_toBits (d : Digits10) : Digits10.ofBits d.toBits = d := by
  rcases d with ⟨d0, d1, d2, d3, d4, d5, d6, d7, d8, d9⟩
  simp [Digits10.ofBits, Digits10.toBits, extract_append_low 54 6, extract_append_high 54 6, extract_append_low 48 6,
    extract_append_high 48 6, extract_append_low 42 6, extract_append_high 42 6, extract_append_low 36 6,
    extract_append_high 36 6, extract_append_low 30 6, extract_append_high 30 6, extract_append_low 24 6,
    extract_append_high 24 6, extract_append_low 18 6, extract_append_high 18 6, extract_append_low 12 6,
    extract_append_high 12 6, extract_append_low 6 6, extract_append_high 6 6]

theorem digits3_ofBits_toBits (e : Digits3) : Digits3.ofBits e.toBits = e := by
  rcases e with ⟨e0, e1, e2⟩
  simp [Digits3.ofBits, Digits3.toBits, extract_append_low 12 6, extract_append_high 12 6, extract_append_low 6 6,
    extract_append_high 6 6]

theorem quots4_ofBits_toBits (q : Quots4) : Quots4.ofBits q.toBits = q := by
  rcases q with ⟨q0, q1, q2, q3⟩
  simp [Quots4.ofBits, Quots4.toBits, extract_append_low 15 5, extract_append_high 15 5, extract_append_low 10 5,
    extract_append_high 10 5, extract_append_low 5 5, extract_append_high 5 5]

theorem digits10_toBits_ofBits (b : BitVec 60) : (Digits10.ofBits b).toBits = b := by
  simp only [Digits10.ofBits, Digits10.toBits]
  have h := append_extract 60
  rw [h 48 6 6, h 42 6 12, h 36 6 18, h 30 6 24, h 24 6 30, h 18 6 36, h 12 6 42, h 6 6 48, h 0 6 54]
  simp

theorem digits3_toBits_ofBits (b : BitVec 18) : (Digits3.ofBits b).toBits = b := by
  simp only [Digits3.ofBits, Digits3.toBits]
  have h := append_extract 18
  rw [h 6 6 6, h 0 6 12]
  simp

theorem quots4_toBits_ofBits (b : BitVec 20) : (Quots4.ofBits b).toBits = b := by
  simp only [Quots4.ofBits, Quots4.toBits]
  have h := append_extract 20
  rw [h 10 5 5, h 5 5 10, h 0 5 15]
  simp

end Sys2Proof
end

