-- ==== Sys2Proof/Laws/State.lean ====
section
/-!
SUPPORT. One lemma per field per update of the state and of the input ports, so that no later proof unfolds a record
update.
-/

namespace Sys2Proof.Machine

@[simp] theorem State.setInputs_inputs (s : State) (x : Inputs) : (s.setInputs x).inputs = x := rfl
@[simp] theorem State.setInputs_script (s : State) (x : Inputs) : (s.setInputs x).script = s.script := rfl
@[simp] theorem State.setInputs_samples (s : State) (x : Inputs) : (s.setInputs x).samples = s.samples := rfl
@[simp] theorem State.setInputs_draws (s : State) (x : Inputs) : (s.setInputs x).draws = s.draws := rfl

@[simp] theorem State.setScript_inputs (s : State) (m : List HostMove) : (s.setScript m).inputs = s.inputs := rfl
@[simp] theorem State.setScript_script (s : State) (m : List HostMove) : (s.setScript m).script = m := rfl
@[simp] theorem State.setScript_samples (s : State) (m : List HostMove) : (s.setScript m).samples = s.samples := rfl
@[simp] theorem State.setScript_draws (s : State) (m : List HostMove) : (s.setScript m).draws = s.draws := rfl

@[simp] theorem State.pushSample_inputs (s : State) (x : Sample) : (s.pushSample x).inputs = s.inputs := rfl
@[simp] theorem State.pushSample_script (s : State) (x : Sample) : (s.pushSample x).script = s.script := rfl
@[simp] theorem State.pushSample_samples (s : State) (x : Sample) : (s.pushSample x).samples = s.samples ++ [x] := rfl
@[simp] theorem State.pushSample_draws (s : State) (x : Sample) : (s.pushSample x).draws = s.draws := rfl

@[simp] theorem State.setDraws_inputs (s : State) (n : Nat) : (s.setDraws n).inputs = s.inputs := rfl
@[simp] theorem State.setDraws_script (s : State) (n : Nat) : (s.setDraws n).script = s.script := rfl
@[simp] theorem State.setDraws_samples (s : State) (n : Nat) : (s.setDraws n).samples = s.samples := rfl
@[simp] theorem State.setDraws_draws (s : State) (n : Nat) : (s.setDraws n).draws = n := rfl

/-- Two states with the same four fields are the same state. -/
theorem State.ext_fields {s t : State} (h1 : s.inputs = t.inputs) (h2 : s.script = t.script)
    (h3 : s.samples = t.samples) (h4 : s.draws = t.draws) : s = t := by
  cases s
  cases t
  simp_all

end Sys2Proof.Machine
end

