-- ==== Sys2Proof/Laws/Ops.lean ====
section
/-!
SUPPORT. What each shared operation can do, said once: completing an operation, presenting an operand and reading it
back, the loops of the source's algorithms in closed form, and the value an output shows.
-/

namespace Sys2Proof.Machine

/-! ### Completing an operation -/

/-- `complete` answers one next state: only the ports of the operation's unit, the record and the draws differ. -/
theorem complete_next {i : Instr} {out : Outputs} {n : Nat} {s t : State} (h : complete i out n s = .next t) :
    t.inputs = s.inputs.present i ∧ t.script = s.script ∧ t.samples = s.samples ++ [⟨i, out⟩] ∧ t.draws = n := by
  cases h
  exact ⟨rfl, rfl, rfl, rfl⟩

/-! ### The operand on a unit's ports -/

/-- A presented operand stands on its unit's ports. -/
theorem operand_present (x : Inputs) (i : Instr) : (x.present i).operand i.coreUnit = some i := by
  cases i <;>
    simp [Inputs.present, Inputs.drive, Inputs.operand, Instr.coreUnit, digits10_ofBits_toBits, digits3_ofBits_toBits,
      quots4_ofBits_toBits]

/-- Presenting an operand leaves the operands of the other units alone (R28). -/
theorem operand_present_other (x : Inputs) (i : Instr) (u : CoreUnit) (h : i.coreUnit ≠ u) :
    (x.present i).operand u = x.operand u := by
  cases i <;> cases u <;> first | exact absurd rfl h | rfl

/-- The operand on a unit's ports is an operation of that unit, and presenting it again changes nothing. -/
theorem present_operand {x : Inputs} {u : CoreUnit} {i : Instr} (h : x.operand u = some i) :
    i.coreUnit = u ∧ x.present i = x := by
  rcases x with ⟨sw, cq, cd, pq, ue⟩
  cases u <;> simp only [Inputs.operand] at h
  · cases sw <;> simp_all
    subst h
    exact ⟨rfl, rfl⟩
  · cases cq <;> cases cd <;> simp_all
    subst h
    exact ⟨rfl, by simp [Inputs.present, Inputs.drive, digits10_toBits_ofBits]⟩
  · cases pq <;> simp_all
    subst h
    exact ⟨rfl, by simp [Inputs.present, Inputs.drive, quots4_toBits_ofBits]⟩
  · cases ue <;> simp_all
    subst h
    exact ⟨rfl, by simp [Inputs.present, Inputs.drive, digits3_toBits_ofBits]⟩

/-- Presentations to different units commute (R28). -/
theorem present_comm (x : Inputs) (i j : Instr) (h : i.coreUnit ≠ j.coreUnit) :
    (x.present i).present j = (x.present j).present i := by
  cases i <;> cases j <;> first | exact absurd rfl h | rfl

/-! ### The loops in closed form -/

theorem peel_length (n t : Nat) : (peel n t).length = n := by
  induction n generalizing t with
  | zero => rfl
  | succ n ih => simp [peel, ih]

/-- The `k`-th digit peeled is `(t div 62 ^ k) mod 62` (R71). -/
theorem peel_getD (n t k : Nat) (h : k < n) : (peel n t).getD k 0 = t / 62 ^ k % 62 := by
  induction n generalizing t k with
  | zero => omega
  | succ n ih =>
    cases k with
    | zero => simp [peel]
    | succ k => simpa [peel, Nat.div_div_eq_div_mul, Nat.pow_succ, Nat.mul_comm] using ih (t / 62) k (by omega)

/-- What remains after `n` peelings is `t div 62 ^ n` (R71). -/
theorem peelRest_eq (n t : Nat) : peelRest n t = t / 62 ^ n := by
  induction n generalizing t with
  | zero => simp [peelRest]
  | succ n ih => simp [peelRest, ih, Nat.div_div_eq_div_mul, Nat.pow_succ, Nat.mul_comm]

/-- Horner's method over a list that ends in `d`: one more step. -/
theorem horner_append (r d : Nat) (ds : List Nat) : horner r (ds ++ [d]) = horner r ds * 62 + d := by
  induction ds generalizing r with
  | nil => rfl
  | cons x xs ih => simp [horner, ih]

/-! ### The value an output shows -/

@[simp] theorem deliver_err {α : Type} (v : α) : (deliver v).err = .none := rfl
@[simp] theorem deliver_data {α : Type} (v : α) : (deliver v).data = some v := rfl
@[simp] theorem raise_err {α : Type} (e : ErrCode) (d : Option α) : (raise e d).err = e := rfl
@[simp] theorem raise_data {α : Type} (e : ErrCode) (d : Option α) : (raise e d).data = d := rfl

/-- A specified output shows its value and costs no draw. -/
theorem shown_some {α : Type} {r : UnitResult α} {v : α} (h : r.data = some v) (free : Nat → α) (n : Nat) :
    r.shown free n = v ∧ r.drawsAfter n = n := by
  simp [UnitResult.shown, UnitResult.drawsAfter, h]

/-- An unspecified output shows the free value of a draw of its own (R11). -/
theorem shown_none {α : Type} {r : UnitResult α} (h : r.data = none) (free : Nat → α) (n : Nat) :
    r.shown free n = free n ∧ r.drawsAfter n = n + 1 := by
  simp [UnitResult.shown, UnitResult.drawsAfter, h]

end Sys2Proof.Machine
end

