-- ==== Sys2Proof/Laws/Meanings.lean ====
section
/-!
SUPPORT. One lemma per function of the four units: its closed form, which callers cite instead of unfolding a loop, and
the conditions of the error codes as the contract of `Safety` states them.
-/

namespace Sys2Proof.Machine

/-! ### Fields -/

theorem digitAt_toNat (ds : List Nat) (k : Nat) : (digitAt ds k).toNat = ds.getD k 0 % 64 := by
  simp [digitAt]

theorem quotAt_toNat (qs : List Nat) (k : Nat) : (quotAt qs k).toNat = qs.getD k 0 % 32 := by
  simp [quotAt]

/-- A field holds a digit exactly when it does not meet `E_DIGIT`'s condition. -/
theorem digitOk_eq (d : DigitField) : digitOk d = !decide (Config.base ≤ d.toNat) := by
  rw [digitOk, ← decide_not, decide_eq_decide]
  show d.toNat ≤ 61 ↔ ¬ 62 ≤ d.toNat
  omega

/-- A field holds a quotient exactly when it does not meet `E_QUOT`'s condition. -/
theorem quotOk_eq (q : QuotField) : quotOk q = !decide (Config.qradix ≤ q.toNat) := by
  rw [quotOk, ← decide_not, decide_eq_decide]
  show q.toNat ≤ 21 ↔ ¬ 22 ≤ q.toNat
  omega

theorem anyBadDigit_digits10 (d : Digits10) : anyBadDigit (digits10Values d) = !d.wf := by
  simp only [anyBadDigit, digits10Values, Digits10.wf, digitOk_eq, List.any_cons, List.any_nil, Bool.or_false,
    Bool.not_and, Bool.not_not, Bool.or_assoc]

theorem anyBadDigit_digits3 (e : Digits3) : anyBadDigit (digits3Values e) = !e.wf := by
  simp only [anyBadDigit, digits3Values, Digits3.wf, digitOk_eq, List.any_cons, List.any_nil, Bool.or_false,
    Bool.not_and, Bool.not_not, Bool.or_assoc]

theorem anyBadQuot_one (q : QuotField) : anyBadQuot [q.toNat] = !quotOk q := by
  simp only [anyBadQuot, quotOk_eq, List.any_cons, List.any_nil, Bool.or_false, Bool.not_not]

theorem anyBadQuot_quots4 (q : Quots4) : anyBadQuot (quots4Values q) = !q.wf := by
  simp only [anyBadQuot, quots4Values, Quots4.wf, quotOk_eq, List.any_cons, List.any_nil, Bool.or_false,
    Bool.not_and, Bool.not_not, Bool.or_assoc]

/-! ### The numbers the units compute -/

/-- The composer's loop computes `q * 62 ^ 10 + sum of d[k] * 62 ^ k` (R81). -/
theorem composeValue_eq (q : QuotField) (d : Digits10) : composeValue q d = pairValue q d := by
  simp only [composeValue, digits10Values, List.reverse_cons, List.reverse_nil, List.nil_append, List.cons_append, horner,
    pairValue, digits10Value]
  ring

/-- The unpacker's loop computes `e[0] + 62 * e[1] + 3844 * e[2]` (R101). -/
theorem unpackComposite_eq (e : Digits3) : unpackComposite e = digits3Value e := by
  simp only [unpackComposite, digits3Values, List.reverse_cons, List.reverse_nil, List.nil_append, List.cons_append,
    horner, digits3Value]
  ring

/-! ### The error codes -/

theorem composeErr_eq (q : QuotField) (d : Digits10) : composeErr q d = contractErr (.compose q d) := by
  simp only [composeErr, firstError, anyBadDigit_digits10, anyBadQuot_one, composeValue_eq, contractErr]
  cases d.wf <;> cases quotOk q <;> simp [Config.wordLimit]

theorem packErr_eq (q : Quots4) : packErr q = contractErr (.pack q) := by
  simp only [packErr, firstError, anyBadQuot_quots4, contractErr]
  cases q.wf <;> simp

theorem unpackErr_eq (e : Digits3) : unpackErr e = contractErr (.unpack e) := by
  simp only [unpackErr, firstError, anyBadDigit_digits3, unpackComposite_eq, contractErr]
  cases e.wf <;> simp

/-! ### The data -/

/-- The quotient of a word (R71); it is at most 21, so its field holds it (R15). -/
theorem splitQuot_toNat (w : Word) : (splitQuot w).toNat = w.toNat / 62 ^ 10 := by
  have := w.isLt
  simp only [splitQuot, peelRest_eq, BitVec.toNat_ofNat, Config.ndig]
  omega

/-- The digits of a word in closed form (R71). -/
theorem splitDigits_eq (w : Word) : splitDigits w =
    ⟨BitVec.ofNat 6 (w.toNat / 62 ^ 0 % 62), BitVec.ofNat 6 (w.toNat / 62 ^ 1 % 62),
     BitVec.ofNat 6 (w.toNat / 62 ^ 2 % 62), BitVec.ofNat 6 (w.toNat / 62 ^ 3 % 62),
     BitVec.ofNat 6 (w.toNat / 62 ^ 4 % 62), BitVec.ofNat 6 (w.toNat / 62 ^ 5 % 62),
     BitVec.ofNat 6 (w.toNat / 62 ^ 6 % 62), BitVec.ofNat 6 (w.toNat / 62 ^ 7 % 62),
     BitVec.ofNat 6 (w.toNat / 62 ^ 8 % 62), BitVec.ofNat 6 (w.toNat / 62 ^ 9 % 62)⟩ := by
  simp only [splitDigits, digits10Of, digitAt, peel_getD _ _ _ (show 0 < Config.ndig by decide),
    peel_getD _ _ _ (show 1 < Config.ndig by decide), peel_getD _ _ _ (show 2 < Config.ndig by decide),
    peel_getD _ _ _ (show 3 < Config.ndig by decide), peel_getD _ _ _ (show 4 < Config.ndig by decide),
    peel_getD _ _ _ (show 5 < Config.ndig by decide), peel_getD _ _ _ (show 6 < Config.ndig by decide),
    peel_getD _ _ _ (show 7 < Config.ndig by decide), peel_getD _ _ _ (show 8 < Config.ndig by decide),
    peel_getD _ _ _ (show 9 < Config.ndig by decide)]

/-- The three digits the packer peels from a composite (R91). -/
theorem packDigits_eq (c : Nat) : digits3Of (peel Config.novf c) =
    ⟨BitVec.ofNat 6 (c % 62), BitVec.ofNat 6 (c / 62 % 62), BitVec.ofNat 6 (c / 3844 % 62)⟩ := by
  simp only [digits3Of, digitAt, peel_getD _ _ _ (show 0 < Config.novf by decide),
    peel_getD _ _ _ (show 1 < Config.novf by decide), peel_getD _ _ _ (show 2 < Config.novf by decide)]
  norm_num

/-- The four quotients the unpacker divides out of a composite (R101). -/
theorem unpackQuots_eq (c : Nat) : unpackQuots c =
    ⟨BitVec.ofNat 5 (c % 10648 % 484 % 22), BitVec.ofNat 5 (c % 10648 % 484 / 22),
     BitVec.ofNat 5 (c % 10648 / 484), BitVec.ofNat 5 (c / 10648)⟩ := by
  simp [unpackQuots, divideDown, quots4Of, quotAt]

/-! ### Well-formed groups -/

theorem digits10_wf_iff (d : Digits10) : d.wf = true ↔ ∀ x ∈ digits10List d, x.toNat ≤ 61 := by
  simp only [Digits10.wf, digits10List, digitOk, Bool.and_eq_true, decide_eq_true_eq, List.mem_cons, List.not_mem_nil,
    or_false, forall_eq_or_imp, forall_eq, and_assoc]

theorem digits3_wf_iff (e : Digits3) : e.wf = true ↔ ∀ x ∈ digits3List e, x.toNat ≤ 61 := by
  simp only [Digits3.wf, digits3List, digitOk, Bool.and_eq_true, decide_eq_true_eq, List.mem_cons, List.not_mem_nil,
    or_false, forall_eq_or_imp, forall_eq, and_assoc]

theorem quots4_wf_iff (q : Quots4) : q.wf = true ↔ ∀ x ∈ [q.q0, q.q1, q.q2, q.q3], x.toNat ≤ 21 := by
  simp only [Quots4.wf, quotOk, Bool.and_eq_true, decide_eq_true_eq, List.mem_cons, List.not_mem_nil,
    or_false, forall_eq_or_imp, forall_eq, and_assoc]

/-! ### What each operation answers: one sample of its unit -/

/-- Everything an operation can do, said once: it answers one sample of its unit, with the error code its operand calls
for, one draw if its data is unspecified, and, if not, the same outputs in every state. -/
theorem exec_answers (i : Instr) (s : State) : ∃ out,
    Answers i s out (if unspecifiedData i then s.draws + 1 else s.draws) ∧ out.err = contractErr i ∧
      (unspecifiedData i = false → ∀ s', Answers i s' out s'.draws) := by
  cases i with
  | split w => exact ⟨_, rfl, rfl, fun _ _ => rfl⟩
  | compose q d =>
    cases h : contractErr (.compose q d) <;>
      simp only [Answers, exec, execCompose, composeResult, composeErr_eq, h, unspecifiedData] <;>
      exact ⟨_, rfl, rfl, by first | (intros; rfl) | (intro hf; cases hf)⟩
  | pack q =>
    cases h : contractErr (.pack q) <;>
      simp only [Answers, exec, execPack, packResult, packErr_eq, h, unspecifiedData] <;>
      exact ⟨_, rfl, rfl, by first | (intros; rfl) | (intro hf; cases hf)⟩
  | unpack e =>
    cases h : contractErr (.unpack e) <;>
      simp only [Answers, exec, execUnpack, unpackResult, unpackErr_eq, h, unspecifiedData] <;>
      exact ⟨_, rfl, rfl, by first | (intros; rfl) | (intro hf; cases hf)⟩

/-- Two answers to one operation in one state are the same answer. -/
theorem answers_unique {i : Instr} {s : State} {o o' : Outputs} {n n' : Nat} (h : Answers i s o n)
    (h' : Answers i s o' n') : o = o' ∧ n = n' := by
  rw [Answers] at h h'
  rw [h] at h'
  simpa using h'

end Sys2Proof.Machine
end

