-- ==== Sys2Proof/Laws/Codec.lean ====
section
/-!
SUPPORT. What the operations of the host protocol and of the written form can do, said once: finding a character's place,
reading off a string's digits, the search for an invalid character, and hexadecimal digits.
-/

namespace Sys2Proof.Machine

/-! ### Characters and digits -/

/-- The three runs are the string R110 spells out. -/
theorem alphabet_eq_string :
    alphabet = "0123456789ABCDEFGHIJKLMNOPQRSTUVWXYZabcdefghijklmnopqrstuvwxyz".toList := by decide

theorem alphabet_length : alphabet.length = 62 := by decide

/-- A place found counts from the start of the search and holds the character. -/
theorem placeFrom_some {c : Char} {l : List Char} {n d : Nat} (h : placeFrom n c l = some d) :
    n ≤ d ∧ l[d - n]? = some c := by
  induction l generalizing n with
  | nil => cases h
  | cons x xs ih =>
    simp only [placeFrom] at h
    split at h
    · next hx =>
      cases h
      simp [hx]
    · obtain ⟨h1, h2⟩ := ih h
      refine ⟨by omega, ?_⟩
      rw [show d - n = (d - (n + 1)) + 1 by omega]
      simpa using h2

/-- Every character with a digit has one below 62 (R112). -/
theorem charToDigit_lt {c : Char} {d : Nat} (h : charToDigit c = some d) : d < 62 := by
  by_contra hd
  have := (placeFrom_some h).2
  rw [List.getElem?_eq_none (by rw [alphabet_length]; omega)] at this
  cases this

/-- If all characters of a string have digits, the field of each position holds a digit (R118). -/
theorem digitOfChar_le {s : List Char} (h : ∀ c ∈ s, charToDigit c ≠ none) {p : Nat} (hp : p < s.length) :
    (digitOfChar s p).toNat ≤ 61 := by
  cases hd : charToDigit s[p] with
  | none => exact absurd hd (h _ (List.getElem_mem hp))
  | some d =>
    have := charToDigit_lt hd
    simp [digitOfChar, List.getElem?_eq_getElem hp, hd]
    omega

/-! ### The search for an invalid character (R120) -/

/-- What the search finds is an invalid character at its position. -/
theorem firstInvalid_some {s : List Char} {l : List Nat} {p : Nat} {c : Char} (h : firstInvalid s l = some (p, c)) :
    p ∈ l ∧ s[p]? = some c ∧ charToDigit c = none := by
  induction l with
  | nil => cases h
  | cons q ps ih =>
    simp only [firstInvalid] at h
    split at h
    · exact (ih h).imp_left (List.mem_cons_of_mem _)
    · next c' hc =>
      split at h
      · exact (ih h).imp_left (List.mem_cons_of_mem _)
      · next hn =>
        cases h
        exact ⟨List.mem_cons_self, hc, hn⟩

/-- If the search finds nothing, every character at a position it visits has a digit. -/
theorem firstInvalid_none {s : List Char} {l : List Nat} (h : firstInvalid s l = none) :
    ∀ p ∈ l, ∀ c, s[p]? = some c → charToDigit c ≠ none := by
  induction l with
  | nil => simp
  | cons q ps ih =>
    simp only [firstInvalid] at h
    intro p hp c hc
    split at h
    · next hq =>
      rcases List.mem_cons.1 hp with rfl | hp
      · rw [hq] at hc
        cases hc
      · exact ih h p hp c hc
    · next c' hq =>
      split at h
      · next d hd =>
        rcases List.mem_cons.1 hp with rfl | hp
        · rw [hq] at hc
          cases hc
          simp [hd]
        · exact ih h p hp c hc
      · cases h

/-- The checks pass exactly on 43 characters that hold no invalid one where the search looks (R118). -/
theorem decodeCheck_none {order : List Nat} {s : List Char} :
    decodeCheck order s = none ↔ s.length = 43 ∧ firstInvalid s order = none := by
  rw [decodeCheck]
  split <;> simp_all

/-- The length check comes first, and `WrongLength` is its error alone (R119). -/
theorem decodeCheck_wrongLength {order : List Nat} {s : List Char} :
    decodeCheck order s = some .wrongLength ↔ s.length ≠ 43 := by
  rw [decodeCheck]
  split <;> simp_all

/-- An invalid character is reported only by the search, on a string of the right length (R120). -/
theorem decodeCheck_invalidSymbol {order : List Nat} {s : List Char} {p : Nat} {c : Char} :
    decodeCheck order s = some (.invalidSymbol p c) ↔ s.length = 43 ∧ firstInvalid s order = some (p, c) := by
  rw [decodeCheck]
  split <;> simp_all

/-! ### Hexadecimal digits (R52) -/

@[simp] theorem hexDigits_length (k n : Nat) : (hexDigits k n).length = k := by
  induction k <;> simp [hexDigits, *]

theorem hexValue_hexChar {d : Nat} (h : d < 16) : hexValue (hexChar d) = some d := by
  interval_cases d <;> decide

/-- Reading `k` written digits after a value appends the number's low `k` digits to it. -/
theorem readRadix_hexDigits (k n a : Nat) : readRadix 16 a (hexDigits k n) = some (a * 16 ^ k + n % 16 ^ k) := by
  induction k generalizing a with
  | zero => simp [hexDigits, readRadix, Nat.mod_one]
  | succ k ih =>
    have h : n / 16 ^ k % 16 < 16 := Nat.mod_lt _ (by norm_num)
    simp only [hexDigits, readRadix, hexValue_hexChar h, h, if_true, ih]
    congr 1
    rw [Nat.pow_succ, Nat.mod_mul, Nat.add_mul]
    ring

end Sys2Proof.Machine
end

