-- ==== Sys2Proof/Laws/PerInstr.lean ====
section
/-!
SUPPORT. A statement for every operation, one lemma per constructor: the operation word's two top bits are the unit code of
the operation's unit, and the rest is its operand payload (R52).
-/

namespace Sys2Proof.Laws.UnitCode

/-- The unit code and the payload stand in the operation word where R52 puts them. -/
def Statement (i : Instr) : Prop :=
  (encode i).extractLsb' 65 2 = i.coreUnit.code ∧ (encode i).extractLsb' 0 65 = i.payload

/-- A 2-bit code over a 65-bit payload gives both back. -/
theorem code_over_payload (c : BitVec 2) (p : BitVec 65) :
    (c ++ p).extractLsb' 65 2 = c ∧ (c ++ p).extractLsb' 0 65 = p := by
  constructor
  · simp [extract_append_high 2 65]
  · simp [extract_append_low 2 65]

theorem split (w : Word) : Statement (.split w) := code_over_payload _ _

theorem compose (q : QuotField) (d : Digits10) : Statement (.compose q d) := code_over_payload _ _

theorem pack (q : Quots4) : Statement (.pack q) := code_over_payload _ _

theorem unpack (e : Digits3) : Statement (.unpack e) := code_over_payload _ _

end Sys2Proof.Laws.UnitCode
end

