-- ==== Sys2Proof/Laws/Step.lean ====
section
/-!
SUPPORT. What a step can do, said once: every invariant is derived from the inversion lemma here.
-/

namespace Sys2Proof.Machine

/-- A step that answers a next state took one move off the host's list, and that move either sampled a unit, by its name
or by an operation word, and recorded what the operation answers, or changed input ports only. -/
theorem step_next {s t : State} (h : step s = .next t) :
    (∃ i out m, s.script = m :: t.script ∧ ((m = .sample i.coreUnit) ∨ ∃ w, m = .command w ∧ i = decodeWord w) ∧
      t.samples = s.samples ++ [⟨i, out⟩] ∧ Answers i (s.setScript t.script) out t.draws) ∨
    (∃ m, s.script = m :: t.script ∧ t.samples = s.samples ∧ t.draws = s.draws ∧ (∀ u, m ≠ .sample u) ∧
      ∀ w, m ≠ .command w) := by
  simp only [step, stepOf] at h
  split at h
  · cases h
  · rename_i m ms hs
    cases m <;> simp only [makeMove, Host.Outcome.next.injEq] at h
    · subst h
      exact .inr ⟨_, hs, rfl, rfl, by simp, by simp⟩
    · subst h
      exact .inr ⟨_, hs, rfl, rfl, by simp, by simp⟩
    · subst h
      exact .inr ⟨_, hs, rfl, rfl, by simp, by simp⟩
    · simp only [sampleUnit] at h
      split at h
      · rename_i i hi
        obtain ⟨out, ha, -, -⟩ := exec_answers i (s.setScript ms)
        have hx := ha
        rw [Answers] at hx
        rw [hx] at h
        cases h
        exact .inl ⟨i, out, _, hs, .inl (by rw [(present_operand hi).1]), rfl, ha⟩
      · cases h
    · rename_i w
      obtain ⟨out, ha, -, -⟩ := exec_answers (decodeWord w) (s.setScript ms)
      have hx := ha
      rw [Answers] at hx
      rw [hx] at h
      cases h
      exact .inl ⟨_, out, _, hs, .inr ⟨_, rfl, rfl⟩, rfl, ha⟩

/-- An operation never stops the machine. -/
theorem exec_ne_fault (i : Instr) (s : State) (f : Fault) : exec i s ≠ .fault f := by
  obtain ⟨out, h, -, -⟩ := exec_answers i s
  rw [Answers] at h
  rw [h]
  simp

end Sys2Proof.Machine
end

