-- ==== Sys2Proof/Tests/Slice0.lean ====
section
/-!
SUPPORT. The author's own tests. Expected values are the spec's (`spec/95_test_vectors.md`, `spec/30_encoding.md`); the
theorems named `witness_…` show states and operands that meet the hypotheses of a statement, clause by clause.
-/

namespace Sys2Proof.Tests

open Sys2Proof Sys2Proof.Machine

/-! ### Small states -/

/-- The state after reset with a list of host moves. -/
def playing (ms : List HostMove) : State := State.reset.setScript ms

/-- Input ports that are all held: an all-ones word, the COMPOSE operand of 2^64 - 1, four quotients 21, the digits of
234255. -/
def heldInputs : Inputs where
  s_w := .held 0xFFFFFFFFFFFFFFFF#64
  c_q := .held 21#5
  c_d := .held 0xF2A46404629188F#60
  p_q := .held 0xAD6B5#20
  u_e := .held 0x3CE93#18

/-- Those ports, with a list of host moves. -/
def heldPlaying (ms : List HostMove) : State := ⟨heldInputs, ms, [], 0⟩

/-- The output of the last sample after one operation from reset. -/
def lastOut : Host.Outcome State Fault Refusal → Option Outputs
  | .next s => s.samples.getLast?.map Sample.out
  | .fault _ => none
  | .refused _ => none

/-- The result word after one operation from reset. -/
def resultOf (i : Instr) : Option ResultWord := (lastOut (exec i State.reset)).map resultWord

/-- The error code after one operation from reset. -/
def errOf (i : Instr) : Option ErrCode := (lastOut (exec i State.reset)).map Outputs.err

/-- Ten digits 61. -/
def allNines : Digits10 := ⟨61#6, 61#6, 61#6, 61#6, 61#6, 61#6, 61#6, 61#6, 61#6, 61#6⟩

/-- The digits of 821457390474406911, the largest remainder under quotient 21 (R81). -/
def topDigits : Digits10 := ⟨15#6, 34#6, 17#6, 10#6, 6#6, 1#6, 36#6, 17#6, 42#6, 60#6⟩

/-- The digits of 821457390474406912: with quotient 21 the value is 2^64. -/
def overDigits : Digits10 := ⟨16#6, 34#6, 17#6, 10#6, 6#6, 1#6, 36#6, 17#6, 42#6, 60#6⟩

/-- Ten digits 0. -/
def zeros : Digits10 := ⟨0#6, 0#6, 0#6, 0#6, 0#6, 0#6, 0#6, 0#6, 0#6, 0#6⟩

/-! ### WellFormed refuses an ill-formed field in every place (R45, R47) -/

theorem test_compose_bad_quotient_is_ill_formed : (Instr.compose 22#5 zeros).wf = false := by decide

theorem test_compose_bad_digit_is_ill_formed :
    ∀ d ∈ [{ zeros with d0 := 62#6 }, { zeros with d1 := 63#6 }, { zeros with d2 := 62#6 }, { zeros with d3 := 63#6 },
      { zeros with d4 := 62#6 }, { zeros with d5 := 63#6 }, { zeros with d6 := 62#6 }, { zeros with d7 := 63#6 },
      { zeros with d8 := 62#6 }, { zeros with d9 := 63#6 }], (Instr.compose 0#5 d).wf = false := by decide

theorem test_pack_bad_quotient_is_ill_formed :
    ∀ q ∈ [Quots4.mk 22#5 0#5 0#5 0#5, ⟨0#5, 31#5, 0#5, 0#5⟩, ⟨0#5, 0#5, 22#5, 0#5⟩, ⟨0#5, 0#5, 0#5, 31#5⟩],
      (Instr.pack q).wf = false := by decide

theorem test_unpack_bad_digit_is_ill_formed :
    ∀ e ∈ [Digits3.mk 62#6 0#6 0#6, ⟨0#6, 63#6, 0#6⟩, ⟨0#6, 0#6, 62#6⟩], (Instr.unpack e).wf = false := by decide

theorem test_largest_fields_are_well_formed :
    (Instr.compose 21#5 allNines).wf = true ∧ (Instr.pack ⟨21#5, 21#5, 21#5, 21#5⟩).wf = true ∧
      (Instr.unpack ⟨61#6, 61#6, 61#6⟩).wf = true ∧ (Instr.split 0#64).wf = true := by decide

/-! ### Decoding words written out bit by bit from R52 and R55 (unit code, quotient, digits, highest bits first) -/

theorem test_decode_split_word :
    decodeWord (0b00#2 ++ 0b0#1 ++ 0x8000000000000001#64) = .split 0x8000000000000001#64 := by decide

theorem test_decode_compose_word :
    decodeWord (0b01#2 ++ 0b10101#5 ++ 0b111100#6 ++ 0b101010#6 ++ 0b010001#6 ++ 0b100100#6 ++ 0b000001#6 ++ 0b000110#6 ++
      0b001010#6 ++ 0b010001#6 ++ 0b100010#6 ++ 0b001111#6) = .compose 21#5 topDigits := by decide

theorem test_decode_pack_word :
    decodeWord (0b10#2 ++ 0#45 ++ 0b00100#5 ++ 0b00011#5 ++ 0b00010#5 ++ 0b00001#5) = .pack ⟨1#5, 2#5, 3#5, 4#5⟩ := by
  decide

theorem test_decode_unpack_word :
    decodeWord (0b11#2 ++ 0#47 ++ 0b111100#6 ++ 0b111010#6 ++ 0b010011#6) = .unpack ⟨19#6, 58#6, 60#6⟩ := by decide

/-- The first number that is not a word (R52), and a table word of 72 bits. -/
theorem test_decode_number :
    decodeTableWord 72 (2 ^ 67) = none ∧
      decodeTableWord 72 0x6000000000003CE93 = some (.unpack ⟨19#6, 58#6, 60#6⟩) := by decide

/-! ### The rows of `spec/95_test_vectors.md`, at most two a unit -/

/-- Section 2.1: the last word before the largest quotient. -/
theorem test_split_last_of_quotient_20 :
    resultOf (.split 0xF49998DB0AA753FF#64) = some 0x14F7DF7DF7DF7DF7D#67 := by decide

/-- Section 2.1: arbitrary digits, no signedness. -/
theorem test_split_arbitrary : resultOf (.split 0xDEADBEEFCAFEBABE#64) = some 0x131D36BBE2DD42916#67 := by decide

/-- Section 2.2: the largest canonical operand. -/
theorem test_compose_largest : resultOf (.compose 21#5 topDigits) = some 0x0FFFFFFFFFFFFFFFF#67 := by decide

/-- Section 2.2: the three errors and their order. -/
theorem test_compose_errors :
    errOf (.compose 21#5 overDigits) = some .eRange ∧ errOf (.compose 22#5 zeros) = some .eQuot ∧
      errOf (.compose 22#5 { zeros with d0 := 62#6 }) = some .eDigit ∧
      errOf (.compose 21#5 { allNines with d9 := 62#6 }) = some .eDigit := by decide

/-- Section 2.3: arbitrary quotients. -/
theorem test_pack_arbitrary : resultOf (.pack ⟨7#5, 13#5, 20#5, 5#5⟩) = some 0x000000000000106E3#67 := by decide

/-- Section 2.3: a quotient field of 22. -/
theorem test_pack_error : errOf (.pack ⟨21#5, 21#5, 21#5, 22#5⟩) = some .eQuot := by decide

/-- Section 2.4: the smallest unused trailer, with the outputs as computed. -/
theorem test_unpack_first_unused : resultOf (.unpack ⟨20#6, 58#6, 60#6⟩) = some 0x600000000000B0000#67 := by decide

/-- Section 2.4: an ill-formed digit is reported before the range. -/
theorem test_unpack_error : errOf (.unpack ⟨62#6, 61#6, 61#6⟩) = some .eDigit := by decide

/-! ### Steps -/

/-- The row a host places in the table's numbering runs next. -/
theorem test_placed_word_runs :
    step (State.reset.withFetchWord 72 0x331D36BBE2DD42916) =
      exec (.compose 19#5 ⟨22#6, 36#6, 2#6, 53#6, 45#6, 56#6, 59#6, 26#6, 19#6, 7#6⟩) State.reset := rfl

/-- A sample between "change" and "drive" has no meaning (R153). -/
theorem test_sample_while_changing :
    step ⟨heldInputs.change .c_d, [.sample .composer], [], 0⟩ = .fault (.inputsNotHeld .composer) := rfl

/-! ### The host protocol: the source's own examples and the derived vectors -/

/-- X1: four zero words are 43 times the character 0. -/
theorem test_encode_zero : encode256 ⟨0#64, 0#64, 0#64, 0#64⟩ = .ok (List.replicate 43 '0') := by decide

/-- P4: a string with mixed quotients. -/
theorem test_decode_mixed :
    decode256 ascendingOrder (fun _ => .other 0) "zBKRVDfU36Ma2rjuxQJ7Ngtf5100008m85Y0n8LzAoR".toList =
      .value ⟨0x0123456789ABCDEF#64, 0xDEADBEEFCAFEBABE#64, 0x000000003B9ACA07#64, 0x8000000000000000#64⟩ := by decide

/-- X6: the underscore at position 17. -/
theorem test_decode_invalid_symbol :
    decode256 ascendingOrder (fun _ => .other 0) (List.replicate 17 '0' ++ '_' :: List.replicate 25 '0') =
      .error (.invalidSymbol 17 '_') := by decide

/-- P6: a well-formed string whose fourth word overflows is left to the host. -/
theorem test_decode_overflow_is_open :
    decode256 ascendingOrder (fun _ => .other 7) (List.replicate 30 '0' ++ "GYHA61aHgyaAw".toList) = .other 7 := by decide

/-! ### The listing syntax (R59) -/

/-- A line of P5 as the spec writes it. -/
theorem test_listing_writes :
    listing (.unpack ⟨61#6, 61#6, 61#6⟩) = "UNPACK 61 61 61 -> 1 9 8 22 ; err=E_RANGE".toList := by decide

/-- Lines with a quoted group, quoted digits, a hexadecimal number and a comment are read. -/
theorem test_listing_reads :
    readListing ("COMPOSE 21, ".toList ++ [doubleQuote] ++ "FYHA61aHgy".toList ++ [doubleQuote]) =
      some (.compose 21#5 topDigits) ∧
    readListing ("UNPACK ".toList ++ [singleQuote, 'A', singleQuote] ++ " 0x3F 61 ; a comment".toList) =
      some (.unpack ⟨10#6, 63#6, 61#6⟩) := by decide

/-- Section 3, P3 and P3b: the macro lines, written and expanded. -/
theorem test_macro_lines :
    decodeListing ascendingOrder "zzzzzzzzzz0000000000zzzzzzzzzz00000000006m2".toList =
      "DECODE256 ".toList ++ quoted "zzzzzzzzzz0000000000zzzzzzzzzz00000000006m2".toList ++
        " -> 0x0BA5CA5392CB03FF 0x0BA5CA5392CB0400 0x0BA5CA5392CB03FF 0x0BA5CA5392CB0400".toList ∧
    expandMacro ascendingOrder
        "ENCODE256 0x0BA5CA5392CB03FF 0x0BA5CA5392CB0400 0x0BA5CA5392CB03FF 0x0BA5CA5392CB0400".toList =
      some (.ok [.split 0x0BA5CA5392CB03FF#64, .split 0x0BA5CA5392CB0400#64, .split 0x0BA5CA5392CB03FF#64,
        .split 0x0BA5CA5392CB0400#64, .pack ⟨0#5, 1#5, 0#5, 1#5⟩]) := ⟨by rfl, by rfl⟩

/-- Hexadecimal digits of either size, and none beyond them. -/
theorem test_hexadecimal_digits :
    readNat "0x09afAF".toList = some 634799 ∧ readNat "0xg".toList = none ∧ readNat "0xG".toList = none ∧
      readNat "1A".toList = none := by decide

/-- R59 gives quotes to digits alone: one character in single quotes, a whole group in double quotes. -/
theorem test_listing_refuses_misplaced_quotes :
    readListing ("SPLIT ".toList ++ [singleQuote, 'z', singleQuote]) = none ∧
    readListing ("PACK ".toList ++ quoted "1234".toList) = none ∧
    readListing ("UNPACK 1 ".toList ++ [singleQuote, 'z', 'z', singleQuote]) = none ∧
    readListing ("UNPACK 1 ".toList ++ quoted "zz".toList) = none := by decide

/-- X5 and X6: a string that the checks reject shows no words. -/
theorem test_decode_line_of_a_rejected_string :
    decodeListing ascendingOrder [] = "DECODE256 ".toList ++ quoted [] ++ " -> ? ; err=WrongLength".toList ∧
    decodeListing ascendingOrder ('!' :: List.replicate 42 '0') =
      "DECODE256 ".toList ++ quoted ('!' :: List.replicate 42 '0') ++ " -> ? ; err=InvalidSymbol(0, ".toList ++
        [singleQuote, '!', singleQuote, ')'] := ⟨by rfl, by rfl⟩

/-! ### Witnesses: operands and states that meet the hypotheses of the statements -/

theorem witness_OperandFieldsAreTakenVerbatim :
    (0x0FFFFFFFFFFFFFFFF#67).extractLsb' 65 2 = 0#2 ∧ (0x3FFFFFFFFFFFFFFFF#67).extractLsb' 65 2 = 1#2 ∧
      (0x400000000000FFFFF#67).extractLsb' 65 2 = 2#2 ∧ (0x7FFFFFFFFFFFFFFFF#67).extractLsb' 65 2 = 3#2 := by decide

theorem witness_NumbersBeyondBit66AreRejected : 2 ^ 67 ≤ 2 ^ 67 ∧ 2 ^ 67 - 1 < 2 ^ 67 := by decide

theorem witness_SplitIsInjectiveOntoTheCanonicalPairs :
    splitQuot 0xFFFFFFFFFFFFFFFF#64 = splitQuot 0xFFFFFFFFFFFFFFFF#64 ∧
    (allNines.wf = true ∧ (20#5).toNat ≤ 20) ∧
    (topDigits.wf = true ∧ (21#5).toNat = 21 ∧ digits10Value topDigits ≤ 821457390474406911) ∧
    ¬ digits10Value overDigits ≤ 821457390474406911 := by decide

theorem witness_ComposeHasTheClosedForm :
    topDigits.wf = true ∧ (21#5).toNat ≤ 21 ∧ (21#5).toNat * 62 ^ 10 + digits10Value topDigits = 2 ^ 64 - 1 := by decide

theorem witness_ComposeReportsIllFormedOperands :
    (∃ x ∈ digits10List { allNines with d9 := 62#6 }, 62 ≤ x.toNat) ∧
    ((∀ x ∈ digits10List allNines, x.toNat ≤ 61) ∧ 22 ≤ (22#5).toNat ∧ 22 ≤ (31#5).toNat) := by decide

theorem witness_ComposeOverflowsExactlyAboveTheLargestRemainder :
    (overDigits.wf = true ∧ (21#5).toNat = 21 ∧ 821457390474406911 < digits10Value overDigits) ∧
    (allNines.wf = true ∧ (20#5).toNat ≤ 20) ∧
    (topDigits.wf = true ∧ digits10Value topDigits ≤ 821457390474406911) := by decide

theorem witness_SplitInvertsCompose :
    Answers (.compose 21#5 topDigits) State.reset (.composer 0xFFFFFFFFFFFFFFFF#64 .none) 0 := rfl

theorem witness_PackDigitsCarryTheComposite :
    (Quots4.mk 21#5 21#5 21#5 21#5).wf = true ∧ (Quots4.mk 0#5 0#5 0#5 0#5).wf = true := by decide

theorem witness_PackReportsIllFormedQuotients :
    (∃ x ∈ [21#5, 21#5, 21#5, 22#5], 22 ≤ x.toNat) ∧ (∀ x ∈ [21#5, 21#5, 21#5, 21#5], x.toNat ≤ 21) := by decide

theorem witness_PackIsInjectiveOntoTheCanonicalTriples :
    ((Quots4.mk 21#5 0#5 21#5 0#5).wf = true ∧
      packResult ⟨21#5, 0#5, 21#5, 0#5⟩ = packResult ⟨21#5, 0#5, 21#5, 0#5⟩) ∧
    ((Quots4.mk 21#5 21#5 21#5 21#5).wf = true ∧
      packResult ⟨21#5, 21#5, 21#5, 21#5⟩ = ⟨.none, some ⟨19#6, 58#6, 60#6⟩⟩) := by decide

theorem witness_UnpackHasTheClosedForm :
    (Digits3.mk 19#6 58#6 60#6).wf = true ∧ digits3Value ⟨19#6, 58#6, 60#6⟩ = 234255 ∧
      (Digits3.mk 61#6 61#6 61#6).wf = true := by decide

theorem witness_UnpackReportsIllFormedDigits :
    (∃ x ∈ digits3List ⟨62#6, 61#6, 61#6⟩, 62 ≤ x.toNat) ∧ (∀ x ∈ digits3List ⟨61#6, 61#6, 61#6⟩, x.toNat ≤ 61) ∧
    ((List.replicate 43 'z').length = 43 ∧ ∀ c ∈ List.replicate 43 'z', charToDigit c ≠ none) :=
  ⟨by decide, by decide, by simp, by
    intro c hc
    have h : c = 'z' := by simpa using hc
    subst h
    decide⟩

theorem witness_UnpackReportsUnusedTrailersAndShowsTheirQuotients :
    ((Digits3.mk 20#6 58#6 60#6).wf = true ∧ 234256 ≤ digits3Value ⟨20#6, 58#6, 60#6⟩) ∧
    ((Digits3.mk 19#6 58#6 60#6).wf = true ∧ digits3Value ⟨19#6, 58#6, 60#6⟩ < 234256) ∧
    ((Digits3.mk 61#6 61#6 61#6).wf = true ∧ digits3Value ⟨61#6, 61#6, 61#6⟩ = 238327) := by decide

theorem witness_UnpackInvertsPack : (Quots4.mk 21#5 21#5 21#5 21#5).wf = true := by decide

theorem witness_PackInvertsUnpack :
    Answers (.unpack ⟨19#6, 58#6, 60#6⟩) State.reset (.unpacker ⟨21#5, 21#5, 21#5, 21#5⟩ .none) 0 := rfl

theorem witness_PackRefusesUnusedTrailers :
    Answers (.unpack ⟨20#6, 58#6, 60#6⟩) State.reset (.unpacker ⟨0#5, 0#5, 0#5, 22#5⟩ .eRange) 0 := rfl

theorem witness_AnOperationTouchesOnlyItsOwnUnit :
    ((Instr.unpack ⟨0#6, 0#6, 0#6⟩).coreUnit ≠ .splitter ∧ (Instr.unpack ⟨0#6, 0#6, 0#6⟩).coreUnit ≠ .composer ∧
      (Instr.unpack ⟨0#6, 0#6, 0#6⟩).coreUnit ≠ .packer) ∧ (Instr.split 0#64).coreUnit ≠ .unpacker := by decide

theorem witness_OutputsDependOnTheirOwnOperandAlone :
    unspecifiedData (.unpack ⟨61#6, 61#6, 61#6⟩) = false ∧ unspecifiedData (.compose 21#5 topDigits) = false ∧
      unspecifiedData (.compose 21#5 overDigits) = true := by decide

theorem witness_OperationsDoNotInteract :
    (Instr.split 0#64).coreUnit ≠ (Instr.compose 21#5 overDigits).coreUnit := by decide

theorem witness_StepRunsTheDecodedOperation :
    (playing [.command 0x0FFFFFFFFFFFFFFFF#67]).script = .command 0x0FFFFFFFFFFFFFFFF#67 :: [] ∧
    (playing [.command (encode (.pack ⟨1#5, 2#5, 3#5, 4#5⟩))]).script =
      .command (encode (.pack ⟨1#5, 2#5, 3#5, 4#5⟩)) :: [] := by decide

theorem witness_SamplingReadsTheHeldOperand :
    (∀ u, (heldPlaying [.sample u]).script = .sample u :: []) ∧
    (heldPlaying []).inputs.s_w = .held 0xFFFFFFFFFFFFFFFF#64 ∧ (heldPlaying []).inputs.c_q = .held 21#5 ∧
    (heldPlaying []).inputs.c_d = .held 0xF2A46404629188F#60 ∧ (heldPlaying []).inputs.p_q = .held 0xAD6B5#20 ∧
    (heldPlaying []).inputs.u_e = .held 0x3CE93#18 :=
  ⟨fun _ => rfl, rfl, rfl, rfl, rfl, rfl⟩

theorem witness_SamplingReadsTheHeldOperand_next :
    ∃ t, step (heldPlaying [.sample .unpacker]) = .next t := ⟨_, rfl⟩

theorem witness_NoValueIsSampledFromInputsNotHeld :
    (∀ u, step (playing [.sample u]) = .fault (.inputsNotHeld u)) ∧
    ((∀ u, (playing [.sample u]).script = .sample u :: []) ∧ ∀ w, State.reset.inputs.s_w ≠ .held w) :=
  ⟨fun u => by cases u <;> rfl, fun _ => rfl, fun _ h => by cases h⟩

theorem witness_AHostMoveTouchesItsPortAlone :
    (∀ v, (heldPlaying [.drive v]).script = .drive v :: []) ∧ (∀ p, (heldPlaying [.change p]).script = .change p :: []) ∧
      ∀ p, (heldPlaying [.release p]).script = .release p :: [] :=
  ⟨fun _ => rfl, fun _ => rfl, fun _ => rfl⟩

theorem witness_TheOnlyStopsAreTheEndAndUnheldInputs :
    State.reset.script = [] ∧ (playing [.sample .packer]).script = .sample .packer :: [] ∧
      step (playing [.sample .packer]) = .fault (.inputsNotHeld .packer) := ⟨rfl, rfl, rfl⟩

theorem witness_AStepTakesOneMoveAndKeepsTheRecord :
    (∃ t, step (heldPlaying [.sample .splitter]) = .next t) ∧ ∃ t, step (playing [.change .s_w]) = .next t :=
  ⟨⟨_, rfl⟩, ⟨_, rfl⟩⟩

theorem witness_EveryStepKeepsTheRecordGenuine :
    (heldPlaying [.sample .packer]).AllGenuine ∧ ∃ t, step (heldPlaying [.sample .packer]) = .next t :=
  ⟨fun _ h => by simp [heldPlaying] at h, ⟨_, rfl⟩⟩

theorem witness_EveryStepKeepsTheDrawsCounted :
    (heldPlaying [.command 0x2000000000000003E#67]).DrawsCounted ∧
      ∃ t, step (heldPlaying [.command 0x2000000000000003E#67]) = .next t := ⟨rfl, ⟨_, rfl⟩⟩

theorem witness_TheDecodeMacroRunsOnEveryStringOverTheAlphabet :
    (List.replicate 43 'z').length = 43 ∧ (∀ c ∈ List.replicate 43 'z', charToDigit c ≠ none) ∧
    234256 ≤ digits3Value (trailerDigits (List.replicate 43 'z')) :=
  ⟨by simp, by
    intro c hc
    have h : c = 'z' := by simpa using hc
    subst h
    decide, by decide⟩

theorem witness_TheAlphabetIsABijection : 61 ≤ 61 ∧ charToDigit 'z' = some 61 ∧ charToDigit '0' = some 0 := by decide

theorem witness_AScanOrder : ScanOrder ascendingOrder ∧ ScanOrder ascendingOrder.reverse :=
  ⟨List.Perm.refl _, List.reverse_perm _⟩

theorem witness_DecodeOfEncodeIsTheValue :
    ScanOrder ascendingOrder.reverse ∧
      decode256 ascendingOrder.reverse (fun _ => .other 0) (List.replicate 43 '0') = .value ⟨0#64, 0#64, 0#64, 0#64⟩ :=
  ⟨List.reverse_perm _, by decide⟩

theorem witness_OnlyTheLengthGivesWrongLength :
    (List.replicate 42 '0').length ≠ 43 ∧ (List.replicate 44 '0').length ≠ 43 ∧ ScanOrder ascendingOrder.reverse :=
  ⟨by simp, by simp, List.reverse_perm _⟩

/-- The exception: a string that is not canonical, on which the host answers `WrongLength`. -/
theorem witness_OnlyTheLengthGivesWrongLength_exception :
    ScanOrder ascendingOrder ∧ (List.replicate 43 'z').length = 43 ∧
      decode256 ascendingOrder (fun _ => .error .wrongLength) (List.replicate 43 'z') = .error .wrongLength :=
  ⟨List.Perm.refl _, by simp, by decide⟩

theorem witness_AnInvalidCharacterIsReportedAtItsPosition :
    ScanOrder ascendingOrder.reverse ∧ (List.replicate 42 '0' ++ ['!']).length = 43 ∧
      ∃ c ∈ List.replicate 42 '0' ++ ['!'], charToDigit c = none :=
  ⟨List.reverse_perm _, by simp, '!', by simp, by decide⟩

theorem witness_StringsThatAreNotCanonicalAreLeftOpen :
    ScanOrder ascendingOrder ∧ (List.replicate 40 '0' ++ ['z', 'z', 'z']).length = 43 ∧
      ∀ c ∈ List.replicate 40 '0' ++ ['z', 'z', 'z'], charToDigit c ≠ none :=
  ⟨List.Perm.refl _, by simp, by
    intro c hc
    have h : c = '0' ∨ c = 'z' := by simpa using hc
    rcases h with rfl | rfl <;> decide⟩

end Sys2Proof.Tests
end

section
/-!
What an operation shows depends on its operand alone (`spec/10_state.md` R20): its answers in any two states agree.
-/

namespace Sys2Proof.Machine

/-- The error code an operation shows is its operand's, in every state. -/
theorem Answers.err_eq {i : Instr} {s : State} {out : Outputs} {n : Nat} (h : Answers i s out n) :
    out.err = contractErr i := by
  obtain ⟨o, ho, herr, -⟩ := exec_answers i s
  rw [(answers_unique h ho).1, herr]

/-- Where no rule declares the data unspecified, an operation shows the same outputs in every two states. -/
theorem Answers.out_eq {i : Instr} {s s' : State} {out out' : Outputs} {n n' : Nat} (h : Answers i s out n)
    (h' : Answers i s' out' n') (hspec : unspecifiedData i = false) : out = out' := by
  obtain ⟨o, ho, -, hsame⟩ := exec_answers i s
  calc
    out = o := (answers_unique h ho).1
    _ = out' := (answers_unique (hsame hspec s') h').1

/-- The samples an operation leaves from two states agree (R20). -/
theorem Answers.agrees {i : Instr} {s s' : State} {out out' : Outputs} {n n' : Nat} (h : Answers i s out n)
    (h' : Answers i s' out' n') : Sample.Agrees ⟨i, out⟩ ⟨i, out'⟩ :=
  ⟨rfl, h.err_eq.trans h'.err_eq.symm, h.out_eq h'⟩

/-- Settles O31: the operation answers in both states (`exec_answers`), and the two samples agree. The free value of an
unspecified output may differ, since the two states may have made different numbers of draws (log entry 1). -/
theorem outputsDependOnTheirOwnOperandAlone : Obligations.OutputsDependOnTheirOwnOperandAlone := by
  intro i s s'
  obtain ⟨out, h, -, -⟩ := exec_answers i s
  obtain ⟨out', h', -, -⟩ := exec_answers i s'
  obtain ⟨-, herr, hout⟩ := h.agrees h'
  exact ⟨_, _, ⟨i, out⟩, ⟨i, out'⟩, h, h', rfl, rfl, rfl, rfl, herr, hout⟩

end Sys2Proof.Machine
end

section
/-!
Decoding and encoding operation words (`spec/30_encoding.md` R51 to R54). The one fact behind them: encoding a decoded
word keeps the unit code and the payload bits its operation reads, and clears the rest (`encode_decodeWord`).
-/

namespace Sys2Proof

/-! ### The unit code -/

theorem CoreUnit.ofCode_code (u : CoreUnit) : CoreUnit.ofCode u.code = u := by cases u <;> rfl

/-- All four codes are assigned. -/
theorem CoreUnit.code_ofCode : ∀ c : BitVec 2, (CoreUnit.ofCode c).code = c := by decide

@[simp] theorem coreUnit_operandOf (u : CoreUnit) (p : Payload) : (operandOf u p).coreUnit = u := by cases u <;> rfl

theorem code_coreUnit_decodeWord (w : OpWord) : (decodeWord w).coreUnit.code = w.extractLsb' 65 2 := by
  rw [decodeWord, coreUnit_operandOf, CoreUnit.code_ofCode]

theorem extract_code_encode (i : Instr) : (encode i).extractLsb' 65 2 = i.coreUnit.code :=
  (Laws.UnitCode.code_over_payload _ _).1

theorem extract_payload_encode (i : Instr) : (encode i).extractLsb' 0 65 = i.payload :=
  (Laws.UnitCode.code_over_payload _ _).2

/-! ### Decoding what was encoded -/

theorem decode_toNat (w : OpWord) : decode w.toNat = .ok (decodeWord w) := by
  simp only [decode, if_pos w.isLt, BitVec.ofNat_toNat, BitVec.setWidth_eq]

/-- Reading an operation's own payload in its own format gives the operation back. -/
theorem operandOf_payload (i : Instr) : operandOf i.coreUnit i.payload = i := by
  cases i with
  | split w => simp [operandOf, Instr.coreUnit, Instr.payload, payloadW64, extract_append_low 1 64]
  | compose q d =>
    simp [operandOf, Instr.coreUnit, Instr.payload, payloadQD65, extract_append_low 5 60, extract_append_high 5 60,
      digits10_ofBits_toBits]
  | pack q =>
    simp [operandOf, Instr.coreUnit, Instr.payload, payloadQ20, extract_append_low 45 20, quots4_ofBits_toBits]
  | unpack e =>
    simp [operandOf, Instr.coreUnit, Instr.payload, payloadD18, extract_append_low 47 18, digits3_ofBits_toBits]

theorem decodeWord_encode (i : Instr) : decodeWord (encode i) = i := by
  rw [decodeWord, extract_code_encode, extract_payload_encode, CoreUnit.ofCode_code, operandOf_payload]

theorem encode_injective : Function.Injective encode :=
  Function.LeftInverse.injective decodeWord_encode

/-! ### Encoding what was decoded: the padding is cleared -/

/-- The payload bits that are not padding in the operand format of unit `u` (R50, R51). -/
def payloadMask : CoreUnit → Payload
  | .splitter => 0#1 ++ BitVec.allOnes 64
  | .composer => BitVec.allOnes 65
  | .packer => 0#45 ++ BitVec.allOnes 20
  | .unpacker => 0#47 ++ BitVec.allOnes 18

/-- The bits of an operation word that are not padding for unit `u`: the unit code and the payload bits it reads. -/
def operandMask (u : CoreUnit) : OpWord := 3#2 ++ payloadMask u

/-- No bit is padding for the composer. -/
theorem operandMask_composer : operandMask .composer = BitVec.allOnes 67 := by decide

/-- A word is its unit code over its payload. -/
theorem code_append_payload (w : OpWord) : w.extractLsb' 65 2 ++ w.extractLsb' 0 65 = w := by
  simpa using append_extract 67 0 65 2 w

/-- Masking a word masks its unit code and its payload. -/
theorem and_append_mask (w : OpWord) (c : BitVec 2) (p : Payload) :
    w &&& (c ++ p) = (w.extractLsb' 65 2 &&& c) ++ (w.extractLsb' 0 65 &&& p) := by
  conv_lhs => rw [← code_append_payload w]
  exact BitVec.and_append

/-- Keeping the low `n` bits under `m` zeros is a mask. -/
theorem zero_append_extract (m n : Nat) (x : BitVec (m + n)) :
    0#m ++ x.extractLsb' 0 n = x &&& (0#m ++ BitVec.allOnes n) := by
  ext j hj
  by_cases h : j < n <;> simp [BitVec.getElem_append, h, BitVec.getLsbD_eq_getElem hj]

theorem payload_operandOf (u : CoreUnit) (p : Payload) : (operandOf u p).payload = p &&& payloadMask u := by
  cases u with
  | splitter => exact zero_append_extract 1 64 p
  | composer =>
    calc
      payloadQD65 (p.extractLsb' 60 5) (Digits10.ofBits (p.extractLsb' 0 60))
        = p.extractLsb' 60 5 ++ p.extractLsb' 0 60 := by rw [payloadQD65, digits10_toBits_ofBits]
      _ = p := by simpa using append_extract 65 0 60 5 p
      _ = p &&& BitVec.allOnes 65 := BitVec.and_allOnes.symm
  | packer =>
    exact (congrArg (0#45 ++ ·) (quots4_toBits_ofBits _)).trans (zero_append_extract 45 20 p)
  | unpacker =>
    exact (congrArg (0#47 ++ ·) (digits3_toBits_ofBits _)).trans (zero_append_extract 47 18 p)

theorem encode_decodeWord (w : OpWord) : encode (decodeWord w) = w &&& operandMask (decodeWord w).coreUnit := by
  have hcode : w.extractLsb' 65 2 &&& 3#2 = w.extractLsb' 65 2 := BitVec.and_allOnes
  have hpayload : (decodeWord w).payload = w.extractLsb' 0 65 &&& payloadMask (decodeWord w).coreUnit := by
    rw [decodeWord, payload_operandOf, coreUnit_operandOf]
  rw [encode, hpayload, code_coreUnit_decodeWord, operandMask, and_append_mask, hcode]

/-- The mask of every unit covers the unit code. -/
theorem extract_code_and_operandMask (w : OpWord) (u : CoreUnit) :
    (w &&& operandMask u).extractLsb' 65 2 = w.extractLsb' 65 2 := by
  rw [operandMask, and_append_mask, (Laws.UnitCode.code_over_payload _ _).1]
  exact BitVec.and_allOnes

theorem coreUnit_decodeWord_eq_of_masked {w v : OpWord} {u : CoreUnit} (h : w &&& operandMask u = v &&& operandMask u) :
    (decodeWord w).coreUnit = (decodeWord v).coreUnit := by
  have hcode : w.extractLsb' 65 2 = v.extractLsb' 65 2 := by
    rw [← extract_code_and_operandMask w u, h, extract_code_and_operandMask]
  rw [decodeWord, decodeWord, coreUnit_operandOf, coreUnit_operandOf, hcode]

/-- Two words denote the same operation exactly when they agree outside its padding. -/
theorem decodeWord_eq_iff (w v : OpWord) : decodeWord w = decodeWord v ↔
    w &&& operandMask (decodeWord w).coreUnit = v &&& operandMask (decodeWord w).coreUnit := by
  constructor
  · intro h
    rw [← encode_decodeWord, h, ← encode_decodeWord]
  · intro h
    apply encode_injective
    rw [encode_decodeWord, h, coreUnit_decodeWord_eq_of_masked h, ← encode_decodeWord]

/-- The mask of the unit code, alone, selects the operation's unit. -/
theorem and_codeMask (w : OpWord) : w &&& (3#2 ++ 0#65) = (decodeWord w).coreUnit.code ++ 0#65 := by
  rw [and_append_mask, code_coreUnit_decodeWord, BitVec.and_zero]
  exact congrArg (· ++ 0#65) BitVec.and_allOnes

/-- Settles O2: decoding is total by its definition, `decodeWord_eq_iff` and `encode_decodeWord` say that padding and
nothing else is ignored, and the numerals are the masks of the four units written out. -/
theorem decodingIsTotalAndIgnoresPadding : Obligations.DecodingIsTotalAndIgnoresPadding := by
  refine ⟨decode_toNat, code_coreUnit_decodeWord, fun w v => ?_, fun w => ?_, fun w => ?_⟩
  · rw [decodeWord_eq_iff]
    cases (decodeWord w).coreUnit with
    | composer => simp only [operandMask_composer, BitVec.and_allOnes]
    | splitter | packer | unpacker => exact Iff.rfl
  · rw [encode_decodeWord]
    cases (decodeWord w).coreUnit with
    | composer => simp only [operandMask_composer, BitVec.and_allOnes]
    | splitter | packer | unpacker => rfl
  · refine (and_codeMask w).trans ?_
    cases (decodeWord w).coreUnit <;> rfl

end Sys2Proof

namespace Sys2Proof.Machine

theorem extract_payload_resultWord (o : Outputs) : (resultWord o).extractLsb' 0 65 = o.payload :=
  (Laws.UnitCode.code_over_payload _ _).2

/-- Where the result payload of an operation and the operand payload of another are in one format with the same fields,
the result word and the operation word hold the same payload. -/
theorem extract_payload_resultWord_eq_encode {o : Outputs} {i : Instr} (h : o.payload = i.payload) :
    (resultWord o).extractLsb' 0 65 = (encode i).extractLsb' 0 65 := by
  rw [extract_payload_resultWord, extract_payload_encode, h]

/-- Settles O8: in each of the four pairings the result format is the operand format of the inverse operation. -/
theorem resultPayloadIsTheInverseOperandPayload : Obligations.ResultPayloadIsTheInverseOperandPayload :=
  ⟨fun _ _ => extract_payload_resultWord_eq_encode rfl, fun _ _ => extract_payload_resultWord_eq_encode rfl,
    fun _ _ => extract_payload_resultWord_eq_encode rfl, fun _ _ => extract_payload_resultWord_eq_encode rfl⟩

end Sys2Proof.Machine
end

section
/-!
The splitter (`spec/40_splitter.md`). The running value of R70's loop after `k` peelings is `w div 62 ^ k`, so that the
closed forms `splitDigits_eq` and `splitQuot_eq` give the digits and the quotient in terms of the loop.
-/

namespace Sys2Proof.Machine

/-- SPLIT completes on every word in every state, and makes no draw (R70, R73). -/
theorem split_answers (w : Word) (s : State) :
    Answers (.split w) s (.splitter (splitQuot w) (splitDigits w)) s.draws := rfl

/-- The quotient field of a word holds what remains after ten peelings (R70). -/
theorem splitQuot_eq (w : Word) : splitQuot w = BitVec.ofNat 5 (w.toNat / 62 ^ 10) := by
  rw [splitQuot, peelRest_eq]

/-- What remains of a word after ten peelings is at most 21 (R72). -/
theorem word_div_le (w : Word) : w.toNat / 62 ^ 10 ≤ 21 := by
  have := w.isLt
  omega

/-- Settles O9: the running value is `w div 62 ^ k`, whose digits and remainder are those of `splitDigits_eq` and
`splitQuot_eq`; the words are the formats written out, and the example is evaluated. -/
theorem splitRunsThePeelingLoop : Obligations.SplitRunsThePeelingLoop := by
  refine ⟨fun w s => ⟨fun k => w.toNat / 62 ^ k, ?start, ?peeling, word_div_le w, ?next⟩,
    fun _ => rfl, fun _ _ => rfl, by decide, fun s => ⟨_, _, split_answers _ s, rfl, ?outputs, ?word⟩⟩
  case start => exact Nat.div_one _
  case peeling =>
    intro k _
    simp only [Nat.pow_succ, Nat.div_div_eq_div_mul]
  case next =>
    have h := split_answers w s
    rw [splitDigits_eq, splitQuot_eq] at h
    exact h
  case outputs => decide
  case word => decide

end Sys2Proof.Machine
end

section
/-!
The composer (`spec/41_composer.md`). What it answers is said once for each form of its contract: an operand that calls for
an error (`compose_reports`) and one that calls for none (`compose_delivers`). The running value of R80's loop is
`composeRun`, whose last value is the number the contract speaks of.
-/

namespace Sys2Proof.Machine

/-! ### The contract's conditions as conditions on the fields -/

theorem digits10_wf_eq_false_iff (d : Digits10) : d.wf = false ↔ ∃ x ∈ digits10List d, 62 ≤ x.toNat := by
  rw [← Bool.not_eq_true, digits10_wf_iff]
  push Not
  rfl

theorem quotOk_eq_false_iff (q : QuotField) : quotOk q = false ↔ 22 ≤ q.toNat := by
  rw [quotOk_eq, Bool.not_eq_false', decide_eq_true_eq]

/-- The three errors in the order of R80, each with the condition that calls for it. -/
theorem contractErr_compose (q : QuotField) (d : Digits10) : contractErr (.compose q d) =
    if ∃ x ∈ digits10List d, 62 ≤ x.toNat then .eDigit
    else if 22 ≤ q.toNat then .eQuot
    else if 2 ^ 64 ≤ pairValue q d then .eRange
    else .none := by
  simp only [contractErr, digits10_wf_eq_false_iff, quotOk_eq_false_iff]

/-! ### What COMPOSE answers -/

theorem composeResult_of_error {q : QuotField} {d : Digits10} (h : contractErr (.compose q d) ≠ .none) :
    composeResult q d = raise (contractErr (.compose q d)) none := by
  rw [composeResult, composeErr_eq]
  cases hc : contractErr (.compose q d) with
  | none => exact absurd hc h
  | eDigit | eQuot | eRange => rfl

theorem composeResult_of_none {q : QuotField} {d : Digits10} (h : contractErr (.compose q d) = .none) :
    composeResult q d = deliver (BitVec.ofNat 64 (pairValue q d)) := by
  rw [composeResult, composeErr_eq, h, composeValue_eq]

/-- Where the contract calls for an error, COMPOSE reports it and shows a free value, drawn for this sample (R82, R83). -/
theorem compose_reports {q : QuotField} {d : Digits10} {e : ErrCode} (s : State)
    (h : contractErr (.compose q d) = e) (he : e ≠ .none) :
    Answers (.compose q d) s (.composer (Config.freeComposeWord s.draws (encode (.compose q d))) e) (s.draws + 1) := by
  subst h
  rw [Answers, exec, execCompose, composeResult_of_error he]
  rfl

/-- Where the contract calls for no error, COMPOSE shows the operand's value and makes no draw (R80, R81). -/
theorem compose_delivers {q : QuotField} {d : Digits10} (s : State) (h : contractErr (.compose q d) = .none) :
    Answers (.compose q d) s (.composer (BitVec.ofNat 64 (pairValue q d)) .none) s.draws := by
  rw [Answers, exec, execCompose, composeResult_of_none h]
  rfl

/-- Settles O15: a field of 62 or 63 calls for `E_DIGIT`, and a quotient field of 22 or more under ten digits for
`E_QUOT` (`contractErr_compose`). -/
theorem composeReportsIllFormedOperands : Obligations.ComposeReportsIllFormedOperands := by
  intro q d s
  refine ⟨fun hd => compose_reports s ?digit (by decide), fun hd hq => compose_reports s ?quot (by decide)⟩
  case digit => rw [contractErr_compose, if_pos hd]
  case quot =>
    have hd' : ¬ ∃ x ∈ digits10List d, 62 ≤ x.toNat := by
      rw [← digits10_wf_eq_false_iff, (digits10_wf_iff d).2 hd]
      decide
    rw [contractErr_compose, if_neg hd', if_pos hq]

/-! ### The loop of R80 -/

/-- The running value of COMPOSE after the digits from `d[9]` down to `d[k]` are consumed. -/
def composeRun (q : QuotField) (d : Digits10) (k : Nat) : Nat := horner q.toNat ((digits10Values d).drop k).reverse

theorem composeRun_ten (q : QuotField) (d : Digits10) : composeRun q d 10 = q.toNat := rfl

theorem digits10Values_eq_map (d : Digits10) : digits10Values d = (digits10List d).map BitVec.toNat := rfl

theorem composeRun_step (q : QuotField) (d : Digits10) {k : Nat} (hk : k < 10) :
    composeRun q d k = composeRun q d (k + 1) * 62 + ((digits10List d).getD k 0).toNat := by
  have hlist : k < (digits10List d).length := hk
  have hvalues : k < (digits10Values d).length := hk
  have hdigit : (digits10Values d)[k] = ((digits10List d).getD k 0).toNat := by
    simp only [digits10Values_eq_map, List.getElem_map, List.getD_eq_getElem _ _ hlist]
  rw [composeRun, List.drop_eq_getElem_cons hvalues, List.reverse_cons, horner_append, hdigit, composeRun]

/-- The loop ends at the number the contract speaks of (R81). -/
theorem composeRun_zero (q : QuotField) (d : Digits10) : composeRun q d 0 = pairValue q d := composeValue_eq q d

/-- Settles O13: the loop's running value is `composeRun`; the next state follows the order of the three errors in
`contractErr_compose`; the words are the formats written out, and the example is evaluated. -/
theorem composeRunsHornersMethod : Obligations.ComposeRunsHornersMethod := by
  refine ⟨fun q d s => ⟨composeRun q d, composeRun_ten q d, fun _ hk => composeRun_step q d hk, ?next⟩,
    fun _ _ => rfl, fun _ _ => rfl, by decide, fun s => ⟨_, _, compose_delivers s ?clear, rfl, ?output, ?word⟩⟩
  case next =>
    have hc := contractErr_compose q d
    rw [composeRun_zero]
    by_cases hd : ∃ x ∈ digits10List d, 62 ≤ x.toNat
    · rw [if_pos hd] at hc
      rw [if_pos hd, if_pos (.inl hd)]
      exact compose_reports s hc (by decide)
    rw [if_neg hd] at hc ⊢
    by_cases hq : 22 ≤ q.toNat
    · rw [if_pos hq] at hc
      rw [if_pos hq, if_pos (.inr (.inl hq))]
      exact compose_reports s hc (by decide)
    rw [if_neg hq] at hc ⊢
    by_cases hr : 2 ^ 64 ≤ pairValue q d
    · rw [if_pos hr] at hc
      rw [if_pos hr, if_pos (.inr (.inr hr))]
      exact compose_reports s hc (by decide)
    · rw [if_neg hr] at hc
      rw [if_neg hr, if_neg (not_or.2 ⟨hd, not_or.2 ⟨hq, hr⟩⟩)]
      exact compose_delivers s hc
  case clear => decide
  case output => decide
  case word => decide

end Sys2Proof.Machine
end

section
/-!
The overflow packer (`spec/42_overflow_packer.md`). What it answers is said once for each form of its contract: an
ill-formed operand (`pack_reports`) and a well-formed one (`pack_delivers`). The running value of R90's loop after `k`
peelings is the composite divided by `62 ^ k`.
-/

namespace Sys2Proof.Machine

/-! ### The operand's fields and its composite -/

theorem quots4_wf_eq_false_iff (q : Quots4) : q.wf = false ↔ ∃ x ∈ [q.q0, q.q1, q.q2, q.q3], 22 ≤ x.toNat := by
  rw [← Bool.not_eq_true, quots4_wf_iff]
  push Not
  rfl

/-- Four quotients in range make a composite of at most `22 ^ 4 - 1` (R90). -/
theorem quots4Value_le_of_wf {q : Quots4} (h : q.wf = true) : quots4Value q ≤ 234255 := by
  have hfields := (quots4_wf_iff q).1 h
  have h0 : q.q0.toNat ≤ 21 := hfields q.q0 (by simp)
  have h1 : q.q1.toNat ≤ 21 := hfields q.q1 (by simp)
  have h2 : q.q2.toNat ≤ 21 := hfields q.q2 (by simp)
  have h3 : q.q3.toNat ≤ 21 := hfields q.q3 (by simp)
  rw [quots4Value]
  omega

/-- Three base-62 digits carry the composite of four quotients in range (R92). -/
theorem quots4Value_lt_of_wf {q : Quots4} (h : q.wf = true) : quots4Value q < 62 ^ 3 :=
  (quots4Value_le_of_wf h).trans_lt (by decide)

/-! ### What PACK answers -/

/-- The three digits of R90: those peeled from the composite. -/
theorem packDigits_eq_div_pow (c : Nat) : digits3Of (peel Config.novf c) =
    ⟨BitVec.ofNat 6 (c / 62 ^ 0 % 62), BitVec.ofNat 6 (c / 62 ^ 1 % 62), BitVec.ofNat 6 (c / 62 ^ 2 % 62)⟩ := by
  rw [packDigits_eq, Nat.pow_zero, Nat.div_one]
  rfl

theorem packResult_of_not_wf {q : Quots4} (h : q.wf = false) : packResult q = raise .eQuot none := by
  rw [packResult, packErr_eq, contractErr, if_pos h]

theorem packResult_of_wf {q : Quots4} (h : q.wf = true) :
    packResult q = deliver (digits3Of (peel Config.novf (quots4Value q))) := by
  rw [packResult, packErr_eq, contractErr, if_neg (by rw [h]; decide), packComposite]

/-- On an ill-formed operand PACK reports `E_QUOT` and shows a free value, drawn for this sample (R92). -/
theorem pack_reports {q : Quots4} (s : State) (h : q.wf = false) :
    Answers (.pack q) s (.packer (Digits3.ofBits (Config.freePackDigits s.draws (encode (.pack q)))) .eQuot)
      (s.draws + 1) := by
  rw [Answers, exec, execPack, packResult_of_not_wf h]
  rfl

/-- On a well-formed operand PACK shows the digits peeled from the composite and makes no draw (R90). -/
theorem pack_delivers {q : Quots4} (s : State) (h : q.wf = true) :
    Answers (.pack q) s (.packer (digits3Of (peel Config.novf (quots4Value q))) .none) s.draws := by
  rw [Answers, exec, execPack, packResult_of_wf h]
  rfl

/-- Settles O19: the running value is the composite divided by `62 ^ k`, whose digits are those of
`packDigits_eq_div_pow`; the next state follows whether the operand is well-formed; the words are the formats written out,
and the example is evaluated. -/
theorem packPeelsTheComposite : Obligations.PackPeelsTheComposite := by
  refine ⟨fun q s => ⟨fun k => quots4Value q / 62 ^ k, ?start, ?peeling, ?bound, ?next⟩,
    fun _ => rfl, fun _ _ => rfl, by decide, fun s => ⟨_, _, pack_delivers s ?wf, rfl, ?output, ?word⟩⟩
  case start => exact Nat.div_one _
  case peeling =>
    intro j _
    simp only [Nat.pow_succ, Nat.div_div_eq_div_mul]
  case bound =>
    intro h
    have hwf := (quots4_wf_iff q).2 h
    exact ⟨(Nat.div_one _).trans_le (quots4Value_le_of_wf hwf), Nat.div_eq_of_lt (quots4Value_lt_of_wf hwf)⟩
  case next =>
    by_cases hq : ∃ x ∈ [q.q0, q.q1, q.q2, q.q3], 22 ≤ x.toNat
    · rw [if_pos hq, if_pos hq]
      exact pack_reports s ((quots4_wf_eq_false_iff q).2 hq)
    · rw [if_neg hq, if_neg hq, ← packDigits_eq_div_pow]
      exact pack_delivers s ((Bool.not_eq_false _).mp (mt (quots4_wf_eq_false_iff q).1 hq))
  case wf => decide
  case output => decide
  case word => decide

/-- Settles O21: a field of 22 to 31 makes the operand ill-formed (`pack_reports`); any other operand is well-formed, so
its composite is below `62 ^ 3` and PACK delivers it. -/
theorem packReportsIllFormedQuotients : Obligations.PackReportsIllFormedQuotients := by
  refine fun q s => ⟨fun h => pack_reports s ((quots4_wf_eq_false_iff q).2 h), fun h => ?clear, by decide, by decide⟩
  have hwf := (quots4_wf_iff q).2 h
  exact ⟨quots4Value_lt_of_wf hwf, _, pack_delivers s hwf⟩

end Sys2Proof.Machine
end

section
/-!
The overflow unpacker (`spec/43_overflow_unpacker.md`). What it answers is said once for each form of its contract: an
ill-formed operand (`unpack_reports`) and a well-formed one (`unpack_shows`), whose quotients are shown under code 0 and
under `E_RANGE` alike. The running values of R100 are `unpackRun` for Horner's method and `unpackRest` for the divisions.
-/

namespace Sys2Proof.Machine

/-! ### The operand's fields and its value -/

theorem digits3_wf_eq_false_iff (e : Digits3) : e.wf = false ↔ ∃ x ∈ digits3List e, 62 ≤ x.toNat := by
  rw [← Bool.not_eq_true, digits3_wf_iff]
  push Not
  rfl

theorem digits3_fields_le_of_wf {e : Digits3} (h : e.wf = true) :
    e.e0.toNat ≤ 61 ∧ e.e1.toNat ≤ 61 ∧ e.e2.toNat ≤ 61 := by
  simpa [digits3List] using (digits3_wf_iff e).1 h

/-- Three digits denote at most `62 ^ 3 - 1` (R103). -/
theorem digits3Value_le_of_wf {e : Digits3} (h : e.wf = true) : digits3Value e ≤ 238327 := by
  obtain ⟨h0, h1, h2⟩ := digits3_fields_le_of_wf h
  rw [digits3Value]
  omega

/-- A value has one triple of digits. -/
theorem digits3Value_injective_of_wf {e f : Digits3} (he : e.wf = true) (hf : f.wf = true)
    (h : digits3Value e = digits3Value f) : e = f := by
  obtain ⟨he0, he1, -⟩ := digits3_fields_le_of_wf he
  obtain ⟨hf0, hf1, -⟩ := digits3_fields_le_of_wf hf
  rw [digits3Value, digits3Value] at h
  have h0 : e.e0 = f.e0 := BitVec.eq_of_toNat_eq (by omega)
  have h1 : e.e1 = f.e1 := BitVec.eq_of_toNat_eq (by omega)
  have h2 : e.e2 = f.e2 := BitVec.eq_of_toNat_eq (by omega)
  cases e
  cases f
  rw [Digits3.mk.injEq]
  exact ⟨h0, h1, h2⟩

/-- Three peeled numbers are digits. -/
theorem packDigits_wf (c : Nat) : (digits3Of (peel Config.novf c)).wf = true := by
  simp only [packDigits_eq, Digits3.wf, digitOk, BitVec.toNat_ofNat, Bool.and_eq_true, decide_eq_true_eq]
  omega

/-- Three peelings carry a number below `62 ^ 3` exactly. -/
theorem digits3Value_packDigits {c : Nat} (h : c ≤ 238327) : digits3Value (digits3Of (peel Config.novf c)) = c := by
  simp only [packDigits_eq, digits3Value, BitVec.toNat_ofNat]
  omega

/-- The trailer of a string over the alphabet is a well-formed operand (R102). -/
theorem trailerDigits_wf {cs : List Char} (hlen : cs.length = 43) (hcs : ∀ c ∈ cs, charToDigit c ≠ none) :
    (trailerDigits cs).wf = true := by
  have hdigit {p : Nat} (hp : p < 43) : digitOk (digitOfChar cs p) = true :=
    decide_eq_true (digitOfChar_le hcs (hlen ▸ hp))
  simp only [trailerDigits, Digits3.wf, Bool.and_eq_true]
  exact ⟨⟨hdigit (by decide), hdigit (by decide)⟩, hdigit (by decide)⟩

/-! ### What UNPACK answers -/

theorem unpackResult_of_not_wf {e : Digits3} (h : e.wf = false) : unpackResult e = raise .eDigit none := by
  rw [unpackResult, unpackErr_eq, contractErr, if_pos h]

/-- The code a well-formed operand of UNPACK calls for, by its value (R103). -/
theorem contractErr_unpack_of_wf {e : Digits3} (h : e.wf = true) :
    contractErr (.unpack e) = if 234256 ≤ digits3Value e then .eRange else .none := by
  rw [contractErr, if_neg (by rw [h]; decide)]

theorem unpackResult_of_wf {e : Digits3} (h : e.wf = true) :
    unpackResult e = ⟨if 234256 ≤ digits3Value e then .eRange else .none, some (unpackQuots (digits3Value e))⟩ := by
  rw [unpackResult, unpackErr_eq, contractErr_unpack_of_wf h, unpackComposite_eq]
  by_cases hr : 234256 ≤ digits3Value e
  · rw [if_pos hr]
    rfl
  · rw [if_neg hr]
    rfl

/-- On an ill-formed operand UNPACK reports `E_DIGIT` and shows a free value, drawn for this sample (R102). -/
theorem unpack_reports {e : Digits3} (s : State) (h : e.wf = false) :
    Answers (.unpack e) s (.unpacker (Quots4.ofBits (Config.freeUnpackQuots s.draws (encode (.unpack e)))) .eDigit)
      (s.draws + 1) := by
  rw [Answers, exec, execUnpack, unpackResult_of_not_wf h]
  rfl

/-- On a well-formed operand UNPACK shows the quotients divided out of its value, under `E_RANGE` as well, and makes no
draw (R100, R103). -/
theorem unpack_shows {e : Digits3} (s : State) (h : e.wf = true) :
    Answers (.unpack e) s
      (.unpacker (unpackQuots (digits3Value e)) (if 234256 ≤ digits3Value e then .eRange else .none)) s.draws := by
  rw [Answers, exec, execUnpack, unpackResult_of_wf h]
  rfl

/-! ### Horner's method and the divisions of R100 -/

/-- The running value of Horner's method after the digits from `e[2]` down to `e[k]` are consumed. -/
def unpackRun (e : Digits3) (k : Nat) : Nat := horner 0 ((digits3Values e).drop k).reverse

theorem unpackRun_step (e : Digits3) {k : Nat} (hk : k < 3) :
    unpackRun e k = unpackRun e (k + 1) * 62 + ((digits3List e).getD k 0).toNat := by
  interval_cases k <;> rfl

/-- The loop ends at the number the contract speaks of (R101). -/
theorem unpackRun_zero (e : Digits3) : unpackRun e 0 = digits3Value e := unpackComposite_eq e

/-- What is left of `c` when the divisions by `22 ^ 3` down to `22 ^ i` are made. -/
def unpackRest (c i : Nat) : Nat := (Config.powersDown.take (4 - i)).foldl (· % ·) c

theorem unpackRest_step (c : Nat) {i : Nat} (hi : i < 4) : unpackRest c i = unpackRest c (i + 1) % 22 ^ i := by
  interval_cases i <;> rfl

/-- The last division is by 1 and leaves nothing. -/
theorem unpackRest_zero (c : Nat) : unpackRest c 0 = 0 := Nat.mod_one _

/-- Each quotient is that of what the divisions before it left. -/
theorem unpackQuots_eq_unpackRest (c : Nat) : unpackQuots c =
    ⟨BitVec.ofNat 5 (unpackRest c 1 / 22 ^ 0), BitVec.ofNat 5 (unpackRest c 2 / 22 ^ 1),
     BitVec.ofNat 5 (unpackRest c 3 / 22 ^ 2), BitVec.ofNat 5 (unpackRest c 4 / 22 ^ 3)⟩ := by
  rw [unpackQuots_eq, Nat.pow_zero, Nat.div_one]
  rfl

/-- Settles O23: the running values are `unpackRun` and `unpackRest`; the next state follows whether the operand is
well-formed, and then its value; the words are the formats written out, and the example is evaluated. -/
theorem unpackRunsHornerAndDivides : Obligations.UnpackRunsHornerAndDivides := by
  refine ⟨fun e s => ⟨unpackRun e, unpackRest (unpackRun e 0), rfl, fun _ hj => unpackRun_step e hj, rfl,
      fun _ hi => unpackRest_step _ hi, unpackRest_zero _, ?next⟩,
    fun _ => rfl, fun _ _ => rfl, by decide, fun s => ⟨_, _, unpack_shows s ?wf, rfl, ?output, ?word⟩⟩
  case next =>
    rw [← unpackQuots_eq_unpackRest, unpackRun_zero]
    by_cases hd : ∃ x ∈ digits3List e, 62 ≤ x.toNat
    · rw [if_pos hd, if_pos hd]
      exact unpack_reports s ((digits3_wf_eq_false_iff e).2 hd)
    · rw [if_neg hd, if_neg hd]
      exact unpack_shows s ((Bool.not_eq_false _).mp (mt (digits3_wf_eq_false_iff e).1 hd))
  case wf => decide
  case output => decide
  case word => decide

/-- Settles O25: a field of 62 or 63 makes the operand ill-formed (`unpack_reports`); any other operand is well-formed and
gets `E_RANGE` or no error; the trailer of a string over the alphabet is one (`trailerDigits_wf`). -/
theorem unpackReportsIllFormedDigits : Obligations.UnpackReportsIllFormedDigits := by
  refine fun e s => ⟨fun h => unpack_reports s ((digits3_wf_eq_false_iff e).2 h), fun h => ?clear,
    fun cs hlen hcs => (digits3_wf_iff _).1 (trailerDigits_wf hlen hcs)⟩
  case clear =>
    refine ⟨_, _, ?_, unpack_shows s ((digits3_wf_iff e).2 h)⟩
    split <;> decide

/-! ### The unused trailers (R103) -/

/-- The quotients of `22 ^ 4 + r` for a small `r`: 22 on top, the base-22 digits of `r` below. -/
theorem unpackQuots_above_compositeLimit {r : Nat} (hr : r < 10648) : unpackQuots (234256 + r) =
    ⟨BitVec.ofNat 5 (r % 22), BitVec.ofNat 5 (r % 484 / 22), BitVec.ofNat 5 (r / 484), 22#5⟩ := by
  have htop : (234256 + r) / 10648 = 22 := by omega
  have hrest : (234256 + r) % 10648 = r := by omega
  have hlow : r % 484 % 22 = r % 22 := Nat.mod_mod_of_dvd r (by decide)
  rw [unpackQuots_eq, htop, hrest, hlow]

/-- Settles O26: a well-formed operand of value `22 ^ 4 + r` has `r` at most 4071, and its quotients are those of
`unpackQuots_above_compositeLimit`; the triple of a value is the one peeled from it, and there is no other. -/
theorem unpackReportsUnusedTrailersAndShowsTheirQuotients :
    Obligations.UnpackReportsUnusedTrailersAndShowsTheirQuotients := by
  refine ⟨fun e s hwf => ⟨fun hv => ?unused, fun hv => ?used⟩, fun n _ hn => ?triple, by decide⟩
  case unused =>
    have hshows := unpack_shows s hwf
    have hle := digits3Value_le_of_wf hwf
    obtain ⟨r, hr⟩ := Nat.exists_eq_add_of_le hv
    rw [if_pos hv, hr, unpackQuots_above_compositeLimit (by omega)] at hshows
    refine ⟨_, hshows, hle, rfl, ?_⟩
    simp only [hr, Nat.add_sub_cancel_left, BitVec.toNat_ofNat]
    omega
  case used =>
    have hshows := unpack_shows s hwf
    rw [if_neg (by omega)] at hshows
    exact ⟨_, hshows⟩
  case triple =>
    have hvalue := digits3Value_packDigits hn
    exact ⟨digits3Of (peel Config.novf n), packDigits_wf n, hvalue,
      fun f hf hfn => digits3Value_injective_of_wf hf (packDigits_wf n) (hfn.trans hvalue.symm)⟩

end Sys2Proof.Machine
end

section
/-!
The host's alphabet and encode (`spec/45_host_alphabet_codec.md` R112, R113). The search for a character's place in a
list without repetitions inverts reading the list (`charToDigit_eq_some_iff`); encode writes, one character for each, the
43 fields of `encodeDigits` (`encode256_eq`), which all hold digits, so that the writing never fails
(`exists_encode256`).
-/

namespace Sys2Proof.Machine

/-! ### The alphabet -/

/-- In a list without repetitions a character is found at the place it stands at, counted from the start of the search. -/
theorem placeFrom_of_getElem? {c : Char} {l : List Char} {k : Nat} (n : Nat) (hl : l.Nodup) (hk : l[k]? = some c) :
    placeFrom n c l = some (n + k) := by
  induction l generalizing n k with
  | nil => cases hk
  | cons x xs ih =>
    obtain ⟨hx, hxs⟩ := List.nodup_cons.1 hl
    cases k with
    | zero =>
      cases hk
      exact if_pos rfl
    | succ k =>
      have hne : x ≠ c := fun h => hx (h ▸ List.mem_of_getElem? hk)
      rw [placeFrom, if_neg hne, ih (n + 1) hxs hk, Nat.add_right_comm, Nat.add_assoc]

theorem alphabet_nodup : alphabet.Nodup := by decide

/-- The two maps of the alphabet are inverse to each other (R112). -/
theorem charToDigit_eq_some_iff {c : Char} {d : Nat} : charToDigit c = some d ↔ digitToChar d = some c := by
  constructor
  · intro h
    exact (placeFrom_some h).2
  · intro h
    rw [charToDigit, placeFrom_of_getElem? 0 alphabet_nodup h, Nat.zero_add]

/-- Every digit has a character (R110). -/
theorem exists_digitToChar {d : Nat} (h : d ≤ 61) : ∃ c, digitToChar d = some c :=
  ⟨_, List.getElem?_eq_getElem (by rw [alphabet_length]; omega)⟩

/-- Settles O46: both directions are `charToDigit_eq_some_iff`. -/
theorem theAlphabetIsABijection : Obligations.TheAlphabetIsABijection := by
  refine ⟨fun d hd => ?fromDigit, fun c d hc => ⟨Nat.le_of_lt_succ (charToDigit_lt hc), charToDigit_eq_some_iff.1 hc⟩⟩
  case fromDigit =>
    obtain ⟨c, hc⟩ := exists_digitToChar hd
    exact ⟨c, hc, charToDigit_eq_some_iff.2 hc⟩

/-! ### The characters of digit fields -/

/-- Digit fields are written as a string exactly when each has a character, which stands at its field's place. -/
theorem charsOf_eq_ok_iff {ds : List DigitField} {s : List Char} :
    charsOf ds = .ok s ↔ List.Forall₂ (fun d c => digitToChar d.toNat = some c) ds s := by
  induction ds generalizing s with
  | nil =>
    rw [List.forall₂_nil_left_iff, charsOf, Except.ok.injEq]
    exact eq_comm
  | cons d ds ih =>
    rw [List.forall₂_cons_left_iff]
    constructor
    · intro h
      rw [charsOf] at h
      split at h
      · next c cs hc hcs =>
        cases h
        exact ⟨c, cs, hc, ih.1 hcs, rfl⟩
      · cases h
      · cases h
    · rintro ⟨c, cs, hc, hcs, rfl⟩
      rw [charsOf, hc, ih.2 hcs]

/-- Fields that hold digits are always written. -/
theorem exists_charsOf {ds : List DigitField} (h : ∀ x ∈ ds, x.toNat ≤ 61) : ∃ s, charsOf ds = .ok s := by
  induction ds with
  | nil => exact ⟨[], rfl⟩
  | cons d ds ih =>
    obtain ⟨hd, hds⟩ := List.forall_mem_cons.1 h
    obtain ⟨c, hc⟩ := exists_digitToChar hd
    obtain ⟨cs, hcs⟩ := ih hds
    exact ⟨c :: cs, charsOf_eq_ok_iff.2 (.cons hc (charsOf_eq_ok_iff.1 hcs))⟩

theorem charsOf_length {ds : List DigitField} {s : List Char} (h : charsOf ds = .ok s) : s.length = ds.length :=
  (charsOf_eq_ok_iff.1 h).length_eq.symm

/-- The character at a place is that of the field at the place. -/
theorem charsOf_getElem? {ds : List DigitField} {s : List Char} (h : charsOf ds = .ok s) {p : Nat} {d : DigitField}
    (hd : ds[p]? = some d) : s[p]? = digitToChar d.toNat := by
  obtain ⟨hp, rfl⟩ := List.getElem?_eq_some_iff.1 hd
  have hps : p < s.length := (charsOf_length h).symm ▸ hp
  rw [List.getElem?_eq_getElem hps]
  exact ((charsOf_eq_ok_iff.1 h).get hp hps).symm

/-- Every character written is one of the alphabet. -/
theorem charsOf_mem {ds : List DigitField} {s : List Char} (h : charsOf ds = .ok s) {c : Char} (hc : c ∈ s) :
    ∃ d, charToDigit c = some d := by
  obtain ⟨p, hp, rfl⟩ := List.mem_iff_getElem.1 hc
  have hpd : p < ds.length := charsOf_length h ▸ hp
  have hchar := charsOf_getElem? h (List.getElem?_eq_getElem hpd)
  rw [List.getElem?_eq_getElem hp] at hchar
  exact ⟨_, charToDigit_eq_some_iff.2 hchar.symm⟩

/-! ### The digit fields SPLIT and PACK show, as numbers -/

/-- A field filled from a peeled list holds the digit of its weight. -/
theorem digitAt_peel_toNat {n k : Nat} (t : Nat) (hk : k < n) : (digitAt (peel n t) k).toNat = t / 62 ^ k % 62 := by
  rw [digitAt_toNat, peel_getD n t k hk]
  exact Nat.mod_eq_of_lt ((Nat.mod_lt _ (by decide)).trans (by decide))

theorem digits10List_digits10Of (ds : List Nat) : digits10List (digits10Of ds) = (List.range 10).map (digitAt ds) := rfl

theorem digits3List_digits3Of (ds : List Nat) : digits3List (digits3Of ds) = (List.range 3).map (digitAt ds) := rfl

/-- The digit of weight `62 ^ k` of a word, in the field SPLIT shows it in (R71). -/
theorem splitDigits_getD_toNat (w : Word) {k : Nat} (hk : k < 10) :
    ((digits10List (splitDigits w)).getD k 0).toNat = w.toNat / 62 ^ k % 62 := by
  rw [splitDigits, digits10List_digits10Of, List.getD_eq_getElem _ _ (by simpa using hk), List.getElem_map,
    List.getElem_range, digitAt_peel_toNat _ hk]

/-- The digit of weight `62 ^ j` of a composite, in the field PACK shows it in (R91). -/
theorem packDigits_getD_toNat (c : Nat) {j : Nat} (hj : j < 3) :
    ((digits3List (digits3Of (peel Config.novf c))).getD j 0).toNat = c / 62 ^ j % 62 := by
  rw [digits3List_digits3Of, List.getD_eq_getElem _ _ (by simpa using hj), List.getElem_map, List.getElem_range,
    digitAt_peel_toNat _ hj]

/-- The ten fields SPLIT shows hold digits (R72). -/
theorem splitDigits_wf (w : Word) : (splitDigits w).wf = true := by
  simp only [splitDigits_eq, Digits10.wf, digitOk, BitVec.toNat_ofNat, Bool.and_eq_true, decide_eq_true_eq]
  omega

/-- The four quotients of a value are in range, so that PACK delivers (R117). -/
theorem splitQuots_wf (v : Value256) : (splitQuots v).wf = true := by
  simp only [quots4_wf_iff, splitQuots, List.forall_mem_cons, splitQuot_toNat, word_div_le, List.not_mem_nil,
    false_imp_iff, implies_true, and_self]

/-- The composite of the quotients of a value (R14, R72). -/
theorem quots4Value_splitQuots (v : Value256) : quots4Value (splitQuots v) =
    v.w0.toNat / 62 ^ 10 + 22 * (v.w1.toNat / 62 ^ 10) + 484 * (v.w2.toNat / 62 ^ 10) +
      10648 * (v.w3.toNat / 62 ^ 10) := by
  simp only [quots4Value, splitQuots, splitQuot_toNat]

/-! ### Encode -/

/-- The three digits PACK shows for the quotients of a value. -/
def trailerOf (v : Value256) : Digits3 := digits3Of (peel Config.novf (quots4Value (splitQuots v)))

theorem packResult_splitQuots (v : Value256) : packResult (splitQuots v) = ⟨.none, some (trailerOf v)⟩ :=
  packResult_of_wf (splitQuots_wf v)

/-- The 43 digit fields encode writes, in the order of the string (R113). -/
def encodeDigits (v : Value256) : List DigitField :=
  digits10List (splitDigits v.w0) ++ digits10List (splitDigits v.w1) ++
    digits10List (splitDigits v.w2) ++ digits10List (splitDigits v.w3) ++ digits3List (trailerOf v)

theorem encode256_eq (v : Value256) : encode256 v = charsOf (encodeDigits v) := by
  rw [encode256, packResult_splitQuots, encodeDigits]

theorem encodeDigits_length (v : Value256) : (encodeDigits v).length = 43 := rfl

theorem encodeDigits_le (v : Value256) : ∀ x ∈ encodeDigits v, x.toNat ≤ 61 := by
  have hword (w : Word) := (digits10_wf_iff _).1 (splitDigits_wf w)
  have htrailer : ∀ x ∈ digits3List (trailerOf v), x.toNat ≤ 61 := (digits3_wf_iff _).1 (packDigits_wf _)
  simp only [encodeDigits, List.forall_mem_append]
  exact ⟨⟨⟨⟨hword v.w0, hword v.w1⟩, hword v.w2⟩, hword v.w3⟩, htrailer⟩

/-- The span of word `i`: its ten digits, the least significant first (R113). -/
theorem encodeDigits_word (v : Value256) {i k : Nat} (hi : i < 4) (hk : k < 10) : (encodeDigits v)[10 * i + k]? =
    some ((digits10List (splitDigits ([v.w0, v.w1, v.w2, v.w3].getD i 0))).getD k 0) := by
  interval_cases i <;> interval_cases k <;> rfl

/-- The span of the trailer: the three digits of the composite, the least significant first (R113). -/
theorem encodeDigits_trailer (v : Value256) {j : Nat} (hj : j < 3) :
    (encodeDigits v)[40 + j]? = some ((digits3List (trailerOf v)).getD j 0) := by
  interval_cases j <;> rfl

/-- Encode never fails (R117). -/
theorem exists_encode256 (v : Value256) : ∃ s, encode256 v = .ok s := by
  rw [encode256_eq]
  exact exists_charsOf (encodeDigits_le v)

/-- Settles O47: the string is `encodeDigits` written as characters, so each of its characters is that of the field at
its place; the fields' numbers are `splitDigits_getD_toNat` and `packDigits_getD_toNat`. -/
theorem encodeIsTotalAndLaidOutInSpans : Obligations.EncodeIsTotalAndLaidOutInSpans := by
  intro v
  obtain ⟨s, hs⟩ := exists_encode256 v
  have hchars := (encode256_eq v).symm.trans hs
  refine ⟨s, hs, (charsOf_length hchars).trans (encodeDigits_length v), fun c hc => charsOf_mem hchars hc,
    fun i k hi hk => ?word, trailerOf v, packResult_splitQuots v, fun j hj => ?trailer⟩
  case word =>
    have h := charsOf_getElem? hchars (encodeDigits_word v hi hk)
    exact ⟨h, splitDigits_getD_toNat _ hk ▸ h⟩
  case trailer =>
    have h := charsOf_getElem? hchars (encodeDigits_trailer v hj)
    rw [← quots4Value_splitQuots, ← packDigits_getD_toNat _ hj]
    exact ⟨h, h⟩

end Sys2Proof.Machine
end

section
/-!
The order of the error codes (`spec/60_exceptions.md` R136). Which condition each value of `firstError` stands for is
said once; the contract of each operation that has an error port is `firstError` of that operation's conditions.
-/

namespace Sys2Proof.Machine

/-! ### When each code is the first -/

theorem firstError_eq_eDigit_iff {digit quot range : Bool} :
    firstError digit quot range = .eDigit ↔ digit = true := by
  decide +revert

theorem firstError_eq_eQuot_iff {digit quot range : Bool} :
    firstError digit quot range = .eQuot ↔ digit = false ∧ quot = true := by
  decide +revert

theorem firstError_eq_eRange_iff {digit quot range : Bool} :
    firstError digit quot range = .eRange ↔ digit = false ∧ quot = false ∧ range = true := by
  decide +revert

/-! ### The contracts as the first of three conditions -/

theorem contractErr_compose_eq_firstError (q : QuotField) (d : Digits10) :
    contractErr (.compose q d) = firstError (!d.wf) (!quotOk q) (decide (2 ^ 64 ≤ pairValue q d)) := by
  rw [← composeErr_eq, composeErr, anyBadDigit_digits10, anyBadQuot_one, composeValue_eq]

theorem contractErr_pack_eq_firstError (q : Quots4) : contractErr (.pack q) = firstError false (!q.wf) false := by
  rw [← packErr_eq, packErr, anyBadQuot_quots4]

theorem contractErr_unpack_eq_firstError (e : Digits3) :
    contractErr (.unpack e) = firstError (!e.wf) false (decide (234256 ≤ digits3Value e)) := by
  rw [← unpackErr_eq, unpackErr, anyBadDigit_digits3, unpackComposite_eq]

/-- Settles O29: every operation completes with the code its contract calls for (`exec_answers`), the first of its
conditions; an operation without a condition never reports that condition's code. -/
theorem theFirstConditionThatHoldsIsReported : Obligations.TheFirstConditionThatHoldsIsReported := by
  intro i s
  obtain ⟨out, hanswers, herr, -⟩ := exec_answers i s
  refine ⟨_, ⟨i, out⟩, hanswers, rfl, rfl, ?_⟩
  simp only [herr]
  cases i with
  | split w => simp [contractErr]
  | compose q d =>
    simp only [contractErr_compose_eq_firstError, firstError_eq_eDigit_iff, firstError_eq_eQuot_iff,
      firstError_eq_eRange_iff, Bool.not_eq_true', Bool.not_eq_false', decide_eq_true_eq]
    refine ⟨digits10_wf_eq_false_iff d, and_congr (digits10_wf_iff d) (quotOk_eq_false_iff q), ?range⟩
    case range =>
      rw [Instr.wf, Bool.and_eq_true, and_assoc]
      exact and_left_comm
  | pack q =>
    simp only [contractErr_pack_eq_firstError, firstError_eq_eDigit_iff, firstError_eq_eQuot_iff,
      firstError_eq_eRange_iff, Bool.not_eq_true', Bool.false_eq_true, and_false, true_and, and_true]
    exact quots4_wf_eq_false_iff q
  | unpack e =>
    simp only [contractErr_unpack_eq_firstError, firstError_eq_eDigit_iff, firstError_eq_eQuot_iff,
      firstError_eq_eRange_iff, Bool.not_eq_true', Bool.not_eq_false', decide_eq_true_eq, Bool.false_eq_true,
      and_false, true_and]
    exact ⟨digits3_wf_eq_false_iff e, Iff.rfl⟩

end Sys2Proof.Machine
end

section
/-!
Decoding and encoding, the remaining statements (`spec/30_encoding.md`): operation words as numbers and as table words,
the places of the operand fields, the written form, and the result word.
-/

namespace Sys2Proof

/-! ### Operation words as numbers -/

/-- An operation word is a number of every width its table may have. -/
theorem opWord_toNat_mod {nbits : Nat} (h : 67 ≤ nbits) (w : OpWord) : w.toNat % 2 ^ nbits = w.toNat :=
  Nat.mod_eq_of_lt (w.isLt.trans_le (Nat.pow_le_pow_right (by decide) h))

theorem decodeTableWord_toNat {nbits : Nat} (h : 67 ≤ nbits) (w : OpWord) :
    decodeTableWord nbits w.toNat = some (decodeWord w) := by
  rw [decodeTableWord, opWord_toNat_mod h, decode_toNat]

/-- Settles O1: an operation's own payload, read in its own format, gives the operation back (`decodeWord_encode`), and
the other two decoders read a word's number as `decodeWord` reads the word. -/
theorem decodeOfEncodeIsIdentity : Obligations.DecodeOfEncodeIsIdentity := by
  intro i
  have hword := decodeWord_encode i
  refine ⟨hword, ?number, ?table⟩
  case number => rw [decode_toNat, hword]
  case table => rw [decodeTableWord_toNat (Nat.le_refl 67), hword]

/-- Settles O5: the two branches of `decode`. -/
theorem numbersBeyondBit66AreRejected : Obligations.NumbersBeyondBit66AreRejected := by
  intro n
  refine ⟨?rejected, fun h => if_pos h⟩
  case rejected =>
    rw [decode]
    split
    · next h => exact iff_of_false (by simp) (Nat.not_le.2 h)
    · next h => exact iff_of_true rfl (Nat.not_lt.1 h)

/-- Settles O4: the words are evaluated. -/
theorem wordsOfTheSpecDecode : Obligations.WordsOfTheSpecDecode :=
  ⟨by decide, by decide, by decide, by decide, by decide⟩

/-! ### The places of the operand fields -/

theorem decodeWord_of_code {w : OpWord} {u : CoreUnit} (h : w.extractLsb' 65 2 = u.code) :
    decodeWord w = operandOf u (w.extractLsb' 0 65) := by
  rw [decodeWord, h, CoreUnit.ofCode_code]

/-- A field within the payload of a word is the word's bits at the same places. -/
theorem extract_payload_extract (w : OpWord) {k l : Nat} (h : k + l ≤ 65) :
    (w.extractLsb' 0 65).extractLsb' k l = w.extractLsb' k l := by
  conv_rhs => rw [← code_append_payload w]
  exact (extract_append_low 2 65 k l _ _ h).symm

/-- Bit `j` of a field that begins at bit `k` is bit `k + j`. -/
theorem getLsbD_field {n : Nat} (x : BitVec n) {k l j : Nat} (hj : j < l) :
    (x.extractLsb' k l).getLsbD j = x.getLsbD (k + j) := by
  simp [hj]

theorem digits10_ofBits_getD (b : BitVec 60) {k : Nat} (hk : k < 10) :
    (Machine.digits10List (Digits10.ofBits b)).getD k 0 = b.extractLsb' (6 * k) 6 := by
  interval_cases k <;> rfl

theorem digits3_ofBits_getD (b : BitVec 18) {k : Nat} (hk : k < 3) :
    (Machine.digits3List (Digits3.ofBits b)).getD k 0 = b.extractLsb' (6 * k) 6 := by
  interval_cases k <;> rfl

theorem quots4_ofBits_getD (b : BitVec 20) {k : Nat} (hk : k < 4) :
    [(Quots4.ofBits b).q0, (Quots4.ofBits b).q1, (Quots4.ofBits b).q2, (Quots4.ofBits b).q3].getD k 0 =
      b.extractLsb' (5 * k) 5 := by
  interval_cases k <;> rfl

/-- A bit of a field of a group in the payload's low part is the word's bit at the field's place. -/
theorem getLsbD_group_field (w : OpWord) {n p l j : Nat} (hn : n ≤ 65) (hp : p + l ≤ n) (hj : j < l) :
    (((w.extractLsb' 0 65).extractLsb' 0 n).extractLsb' p l).getLsbD j = w.getLsbD (p + j) := by
  rw [extract_payload_extract w (by omega), getLsbD_field _ hj, getLsbD_field _ (by omega), Nat.zero_add]

/-- Settles O3: the unit code selects the format (`decodeWord_of_code`), and each field of a group begins at its place
(`digits10_ofBits_getD` and its companions). -/
theorem operandFieldsAreTakenVerbatim : Obligations.OperandFieldsAreTakenVerbatim := by
  intro w
  refine ⟨fun h => ⟨_, decodeWord_of_code (u := .splitter) h, fun j hj => ?word⟩,
    fun h => ⟨_, _, decodeWord_of_code (u := .composer) h, fun j hj => ?quotient, fun k j hk hj => ?digits⟩,
    fun h => ⟨_, decodeWord_of_code (u := .packer) h, fun k j hk hj => ?quotients⟩,
    fun h => ⟨_, decodeWord_of_code (u := .unpacker) h, fun k j hk hj => ?trailer⟩⟩
  case word => rw [extract_payload_extract w (by decide), getLsbD_field _ hj, Nat.zero_add]
  case quotient => rw [extract_payload_extract w (by decide), getLsbD_field _ hj]
  case digits => rw [digits10_ofBits_getD _ hk, getLsbD_group_field w (by decide) (by omega) hj]
  case quotients => rw [quots4_ofBits_getD _ hk, getLsbD_group_field w (by decide) (by omega) hj]
  case trailer => rw [digits3_ofBits_getD _ hk, getLsbD_group_field w (by decide) (by omega) hj]

end Sys2Proof

namespace Sys2Proof.Machine

/-! ### The written form (R52) -/

/-- A written operation word is read as the word's number: 17 hexadecimal digits hold 68 bits. -/
theorem readNat_showOpWord (w : OpWord) : readNat (showOpWord w) = some w.toNat := by
  have hlt : w.toNat < 16 ^ 17 := w.isLt.trans (by decide)
  calc
    readNat (showOpWord w) = readRadix 16 0 (hexDigits 17 w.toNat) := rfl
    _ = some w.toNat := by rw [readRadix_hexDigits, Nat.zero_mul, Nat.zero_add, Nat.mod_eq_of_lt hlt]

theorem showOpWord_length (w : OpWord) : (showOpWord w).length = 19 := by
  simp [showOpWord]

/-- Settles O6: the digits are read back as the word's number (`readNat_showOpWord`), which decodes as the word. -/
theorem theWrittenOperationWordReadsBack : Obligations.TheWrittenOperationWordReadsBack := by
  intro w
  refine ⟨showOpWord_length w, ?_⟩
  rw [readOpWord, if_pos ⟨showOpWord_length w, rfl⟩, readNat_showOpWord]
  simp only [decode_toNat]

/-! ### The result word (R53) -/

theorem extract_field_resultWord (o : Outputs) {k l : Nat} (h : k + l ≤ 65) :
    (resultWord o).extractLsb' k l = o.payload.extractLsb' k l :=
  extract_append_low 2 65 k l _ _ h

/-- Above the `n` data bits the result payload is padding, which is 0. -/
theorem getLsbD_resultWord_padding {o : Outputs} {m n k : Nat} {x : BitVec n} {h : m + n = 65}
    (ho : o.payload = (0#m ++ x).cast h) (hn : n ≤ k) (hk : k < 65) : (resultWord o).getLsbD k = false := by
  rw [resultWord, BitVec.getLsbD_append, if_pos hk, ho, BitVec.getLsbD_cast, BitVec.getLsbD_append,
    if_neg (Nat.not_lt.2 hn), BitVec.getLsbD_zero]

/-- Settles O7: the code stands over the payload, whose fields are those that decoding the same format reads
(`operandOf_payload`). -/
theorem resultWordHoldsTheOutputs : Obligations.ResultWordHoldsTheOutputs := by
  refine ⟨⟨rfl, rfl, rfl, rfl⟩, fun o => (Laws.UnitCode.code_over_payload _ _).1, fun q d => ?splitter,
    fun w c => ⟨?word, ?wordPadding⟩, fun e c => ⟨?digits, fun k hn hk => ?digitsPadding⟩,
    fun q c => ⟨?quotients, fun k hn hk => ?quotientsPadding⟩⟩
  case splitter =>
    obtain ⟨hq, hd⟩ := Instr.compose.inj (operandOf_payload (.compose q d))
    rw [extract_field_resultWord _ (by decide), extract_field_resultWord _ (by decide)]
    exact ⟨hq, hd, rfl⟩
  case word => exact (extract_field_resultWord _ (by decide)).trans (Instr.split.inj (operandOf_payload (.split w)))
  case wordPadding => exact getLsbD_resultWord_padding (m := 1) (x := w) (h := rfl) rfl (by decide) (by decide)
  case digits =>
    rw [extract_field_resultWord _ (by decide)]
    exact Instr.unpack.inj (operandOf_payload (.unpack e))
  case digitsPadding => exact getLsbD_resultWord_padding (m := 47) (x := e.toBits) (h := rfl) rfl hn hk
  case quotients =>
    rw [extract_field_resultWord _ (by decide)]
    exact Instr.pack.inj (operandOf_payload (.pack q))
  case quotientsPadding => exact getLsbD_resultWord_padding (m := 45) (x := q.toBits) (h := rfl) rfl hn hk

end Sys2Proof.Machine
end

section
/-!
SPLIT and COMPOSE are inverse to each other (`spec/40_splitter.md`, `spec/41_composer.md`). The one fact behind the
statements: a word shows a quotient and ten digits exactly when they are digits and the pair denotes the word
(`split_eq_iff`). It rests on the digits' value being the library's `Nat.ofDigits` of their numbers.
-/

namespace Sys2Proof.Machine

/-! ### The value of ten digits -/

theorem digits10Value_eq_ofDigits (d : Digits10) : digits10Value d = Nat.ofDigits 62 (digits10Values d) := by
  simp only [digits10Value, digits10Values, Nat.ofDigits_cons, Nat.ofDigits_nil]
  ring

theorem digits10Values_lt_of_wf {d : Digits10} (h : d.wf = true) : ∀ x ∈ digits10Values d, x < 62 := by
  intro x hx
  rw [digits10Values_eq_map, List.mem_map] at hx
  obtain ⟨y, hy, rfl⟩ := hx
  exact Nat.lt_succ_of_le ((digits10_wf_iff d).1 h y hy)

/-- Ten digits denote a number below `62 ^ 10`. -/
theorem digits10Value_lt_of_wf {d : Digits10} (h : d.wf = true) : digits10Value d < 62 ^ 10 := by
  rw [digits10Value_eq_ofDigits]
  exact Nat.ofDigits_lt_base_pow_length (b := 62) (by decide) (digits10Values_lt_of_wf h)

theorem digits10Values_injective {d d' : Digits10} (h : digits10Values d = digits10Values d') : d = d' := by
  cases d
  cases d'
  simpa only [digits10Values, List.cons.injEq, BitVec.toNat_inj, and_true, Digits10.mk.injEq] using h

/-- A value has one group of ten digits. -/
theorem digits10Value_injective_of_wf {d d' : Digits10} (hd : d.wf = true) (hd' : d'.wf = true)
    (h : digits10Value d = digits10Value d') : d = d' := by
  rw [digits10Value_eq_ofDigits, digits10Value_eq_ofDigits] at h
  exact digits10Values_injective (Nat.ofDigits_inj_of_len_eq (by decide) rfl (digits10Values_lt_of_wf hd)
    (digits10Values_lt_of_wf hd') h)

/-- Peeling emits the base-62 digits of the low part of a number. -/
theorem ofDigits_peel (n t : Nat) : Nat.ofDigits 62 (peel n t) = t % 62 ^ n := by
  induction n generalizing t with
  | zero => simp [peel, Nat.mod_one]
  | succ n ih =>
    rw [peel, Nat.ofDigits_cons, ih, Nat.pow_succ', Nat.mod_mul]

theorem digits10Values_length (d : Digits10) : (digits10Values d).length = 10 := rfl

theorem digits10Values_getD (d : Digits10) {k : Nat} (hk : k < 10) :
    (digits10Values d).getD k 0 = ((digits10List d).getD k 0).toNat := by
  interval_cases k <;> rfl

theorem digits10Values_splitDigits (w : Word) : digits10Values (splitDigits w) = peel 10 w.toNat := by
  refine List.ext_getElem ((digits10Values_length _).trans (peel_length _ _).symm) fun k hk hk' => ?_
  have h : k < 10 := digits10Values_length _ ▸ hk
  rw [← List.getD_eq_getElem _ 0 hk, ← List.getD_eq_getElem _ 0 hk', digits10Values_getD _ h,
    splitDigits_getD_toNat _ h, peel_getD _ _ _ h]

/-- The digits SPLIT shows denote the word's remainder (R72). -/
theorem digits10Value_splitDigits (w : Word) : digits10Value (splitDigits w) = w.toNat % 62 ^ 10 := by
  rw [digits10Value_eq_ofDigits, digits10Values_splitDigits, ofDigits_peel]

/-! ### The value of a pair -/

/-- What SPLIT shows denotes the word (R72). -/
theorem pairValue_split (w : Word) : pairValue (splitQuot w) (splitDigits w) = w.toNat := by
  rw [pairValue, splitQuot_toNat, digits10Value_splitDigits]
  exact Nat.div_add_mod' _ _

/-- A value has one pair of a quotient and ten digits. -/
theorem pairValue_injective_of_wf {q q' : QuotField} {d d' : Digits10} (hd : d.wf = true) (hd' : d'.wf = true)
    (h : pairValue q d = pairValue q' d') : q = q' ∧ d = d' := by
  have hlt := digits10Value_lt_of_wf hd
  have hlt' := digits10Value_lt_of_wf hd'
  rw [pairValue, pairValue] at h
  have hq : q.toNat = q'.toNat := by omega
  exact ⟨BitVec.eq_of_toNat_eq hq, digits10Value_injective_of_wf hd hd' (by omega)⟩

/-- A word shows a pair exactly when the pair is of digits and denotes the word. -/
theorem split_eq_iff {w : Word} {q : QuotField} {d : Digits10} :
    (splitQuot w = q ∧ splitDigits w = d) ↔ d.wf = true ∧ pairValue q d = w.toNat := by
  constructor
  · rintro ⟨rfl, rfl⟩
    exact ⟨splitDigits_wf w, pairValue_split w⟩
  · rintro ⟨hd, hv⟩
    exact pairValue_injective_of_wf (splitDigits_wf w) hd ((pairValue_split w).trans hv.symm)

/-- The largest remainder under quotient 21: a pair of digits denotes a word exactly up to `2 ^ 64 - 1` (R72, R83). -/
theorem pairValue_lt_iff {q : QuotField} {d : Digits10} (hd : d.wf = true) :
    pairValue q d < 2 ^ 64 ↔ q.toNat ≤ 20 ∨ (q.toNat = 21 ∧ digits10Value d ≤ 821457390474406911) := by
  have hlt := digits10Value_lt_of_wf hd
  rw [pairValue]
  omega

/-- The word COMPOSE delivers holds the operand's value if it is below `2 ^ 64`. -/
theorem toNat_ofNat_pairValue {q : QuotField} {d : Digits10} (h : pairValue q d < 2 ^ 64) :
    (BitVec.ofNat 64 (pairValue q d)).toNat = pairValue q d :=
  (BitVec.toNat_ofNat ..).trans (Nat.mod_eq_of_lt h)

/-! ### SPLIT -/

/-- Settles O10: the fields SPLIT shows, as numbers. -/
theorem splitHasTheClosedForm : Obligations.SplitHasTheClosedForm :=
  fun w s => ⟨_, _, split_answers w s, splitQuot_toNat w, fun _ hk => splitDigits_getD_toNat w hk⟩

/-- Settles O11: the digits are well-formed, so their value is below `62 ^ 10`, and the pair denotes the word. -/
theorem splitMeetsItsPostconditions : Obligations.SplitMeetsItsPostconditions := by
  intro w s
  have hwf := splitDigits_wf w
  refine ⟨_, _, split_answers w s, (digits10_wf_iff _).1 hwf, ?quotient, (pairValue_split w).symm,
    digits10Value_lt_of_wf hwf⟩
  case quotient =>
    rw [splitQuot_toNat]
    exact word_div_le w

/-- Settles O12: equal pairs denote equal words, and a pair of digits is shown by the word it denotes, if there is one
(`split_eq_iff`, `pairValue_lt_iff`). -/
theorem splitIsInjectiveOntoTheCanonicalPairs : Obligations.SplitIsInjectiveOntoTheCanonicalPairs := by
  refine ⟨fun w v hq hd => ?injective, fun q d => ⟨?canonical, ?shown⟩⟩
  case injective =>
    apply BitVec.eq_of_toNat_eq
    rw [← pairValue_split w, hq, hd, pairValue_split]
  case canonical =>
    rintro ⟨w, hw⟩
    obtain ⟨hd, hv⟩ := split_eq_iff.1 hw
    exact ⟨hd, (pairValue_lt_iff hd).1 (hv.trans_lt w.isLt)⟩
  case shown =>
    rintro ⟨hd, hq⟩
    have hlt := (pairValue_lt_iff hd).2 hq
    exact ⟨BitVec.ofNat 64 (pairValue q d), split_eq_iff.2 ⟨hd, (toNat_ofNat_pairValue hlt).symm⟩⟩

/-! ### COMPOSE -/

theorem firstError_eq_none_iff {digit quot range : Bool} :
    firstError digit quot range = .none ↔ digit = false ∧ quot = false ∧ range = false := by
  decide +revert

/-- COMPOSE reports no error exactly on a well-formed operand whose value is a word (R81). -/
theorem contractErr_compose_eq_none_iff {q : QuotField} {d : Digits10} :
    contractErr (.compose q d) = .none ↔ d.wf = true ∧ q.toNat ≤ 21 ∧ pairValue q d < 2 ^ 64 := by
  rw [contractErr_compose_eq_firstError, firstError_eq_none_iff, Bool.not_eq_false', Bool.not_eq_false', quotOk,
    decide_eq_true_eq, decide_eq_false_iff_not, Nat.not_le]

/-- COMPOSE reports `E_RANGE` exactly on a well-formed operand whose value is no word (R83). -/
theorem contractErr_compose_eq_eRange_iff {q : QuotField} {d : Digits10} :
    contractErr (.compose q d) = .eRange ↔ d.wf = true ∧ q.toNat ≤ 21 ∧ 2 ^ 64 ≤ pairValue q d := by
  rw [contractErr_compose_eq_firstError, firstError_eq_eRange_iff, Bool.not_eq_false', Bool.not_eq_false', quotOk,
    decide_eq_true_eq, decide_eq_true_eq]

/-- COMPOSE reports no error exactly on the pairs SPLIT shows, and then delivers the word. -/
theorem contractErr_compose_eq_none_iff_split {q : QuotField} {d : Digits10} :
    contractErr (.compose q d) = .none ↔
      splitQuot (BitVec.ofNat 64 (pairValue q d)) = q ∧ splitDigits (BitVec.ofNat 64 (pairValue q d)) = d := by
  rw [split_eq_iff, contractErr_compose_eq_none_iff]
  constructor
  · rintro ⟨hd, -, hlt⟩
    exact ⟨hd, (toNat_ofNat_pairValue hlt).symm⟩
  · rintro ⟨hd, hv⟩
    have hlt : pairValue q d < 2 ^ 64 := hv.trans_lt (BitVec.isLt _)
    have hq := (pairValue_lt_iff hd).1 hlt
    exact ⟨hd, by omega, hlt⟩

/-- What SPLIT shows calls for no error of COMPOSE, and denotes the word. -/
theorem contractErr_compose_split (w : Word) : contractErr (.compose (splitQuot w) (splitDigits w)) = .none := by
  rw [contractErr_compose_eq_none_iff_split, pairValue_split, BitVec.ofNat_toNat, BitVec.setWidth_eq]
  exact ⟨rfl, rfl⟩

/-- COMPOSE of what SPLIT shows gives the word back (law (a)). -/
theorem compose_split_answers (w : Word) (s : State) :
    Answers (.compose (splitQuot w) (splitDigits w)) s (.composer w .none) s.draws := by
  have h := compose_delivers s (contractErr_compose_split w)
  rwa [pairValue_split, BitVec.ofNat_toNat, BitVec.setWidth_eq] at h

/-- Settles O14: the operand calls for no error, and the word delivered holds its value. -/
theorem composeHasTheClosedForm : Obligations.ComposeHasTheClosedForm := by
  intro q d s hd hq hlt
  exact ⟨_, toNat_ofNat_pairValue hlt, compose_delivers s (contractErr_compose_eq_none_iff.2 ⟨hd, hq, hlt⟩)⟩

/-- Settles O16: on a well-formed operand the value is a word or not, by `pairValue_lt_iff`. -/
theorem composeOverflowsExactlyAboveTheLargestRemainder :
    Obligations.ComposeOverflowsExactlyAboveTheLargestRemainder := by
  intro q d s hd hq
  have hlt := pairValue_lt_iff (q := q) hd
  have hrange : 2 ^ 64 ≤ pairValue q d ↔ q.toNat = 21 ∧ 821457390474406911 < digits10Value d := by omega
  refine ⟨hrange, fun hq21 hv => compose_reports s ?overflow (by decide), fun h => ⟨_, compose_delivers s ?clear⟩⟩
  case overflow => exact contractErr_compose_eq_eRange_iff.2 ⟨hd, hq, hrange.2 ⟨hq21, hv⟩⟩
  case clear => exact contractErr_compose_eq_none_iff.2 ⟨hd, hq, hlt.2 (by omega)⟩

/-- Settles O17: law (a) in the state SPLIT leaves. -/
theorem composeInvertsSplit : Obligations.ComposeInvertsSplit :=
  fun w s => ⟨_, _, _, split_answers w s, split_answers w s, compose_split_answers w _⟩

/-- Settles O18: code 0 means that the operand is what SPLIT shows of the word delivered. -/
theorem splitInvertsCompose : Obligations.SplitInvertsCompose := by
  intro q d s w n h t
  have hclear : contractErr (.compose q d) = .none := h.err_eq.symm
  obtain ⟨hq, hd⟩ := contractErr_compose_eq_none_iff_split.1 hclear
  obtain ⟨hout, -⟩ := answers_unique h (compose_delivers s hclear)
  obtain ⟨hw, -⟩ := Outputs.composer.inj hout
  have hsplit := split_answers w t
  rwa [hw, hq, hd, ← hw] at hsplit

end Sys2Proof.Machine
end

section
/-!
PACK and UNPACK are inverse to each other (`spec/42_overflow_packer.md`, `spec/43_overflow_unpacker.md`). The one fact
behind the statements: PACK delivers a triple for a quadruple exactly when UNPACK delivers the quadruple for the triple
(`packResult_eq_iff_unpackResult_eq`), since both then denote the same number.
-/

namespace Sys2Proof.Machine

/-! ### Quadruples and their composites -/

theorem quots4_fields_le_of_wf {q : Quots4} (h : q.wf = true) :
    q.q0.toNat ≤ 21 ∧ q.q1.toNat ≤ 21 ∧ q.q2.toNat ≤ 21 ∧ q.q3.toNat ≤ 21 := by
  simpa using (quots4_wf_iff q).1 h

/-- A composite has one quadruple of quotients in range. -/
theorem quots4Value_injective_of_wf {q p : Quots4} (hq : q.wf = true) (hp : p.wf = true)
    (h : quots4Value q = quots4Value p) : q = p := by
  obtain ⟨hq0, hq1, hq2, -⟩ := quots4_fields_le_of_wf hq
  obtain ⟨hp0, hp1, hp2, -⟩ := quots4_fields_le_of_wf hp
  rw [quots4Value, quots4Value] at h
  have h0 : q.q0 = p.q0 := BitVec.eq_of_toNat_eq (by omega)
  have h1 : q.q1 = p.q1 := BitVec.eq_of_toNat_eq (by omega)
  have h2 : q.q2 = p.q2 := BitVec.eq_of_toNat_eq (by omega)
  have h3 : q.q3 = p.q3 := BitVec.eq_of_toNat_eq (by omega)
  cases q
  cases p
  rw [Quots4.mk.injEq]
  exact ⟨h0, h1, h2, h3⟩

/-! ### The quotients of a composite, as numbers -/

/-- Up to `62 ^ 3 - 1` each quotient fits its field (R101, R103). -/
theorem unpackQuots_toNat {c : Nat} (h : c ≤ 238327) :
    (unpackQuots c).q3.toNat = c / 10648 ∧ (unpackQuots c).q2.toNat = c % 10648 / 484 ∧
      (unpackQuots c).q1.toNat = c % 484 / 22 ∧ (unpackQuots c).q0.toNat = c % 22 := by
  simp only [unpackQuots_eq, BitVec.toNat_ofNat]
  omega

/-- The four quotients carry the composite exactly (R101). -/
theorem quots4Value_unpackQuots {c : Nat} (h : c ≤ 238327) : quots4Value (unpackQuots c) = c := by
  obtain ⟨h3, h2, h1, h0⟩ := unpackQuots_toNat h
  rw [quots4Value, h0, h1, h2, h3]
  omega

/-- The quotients are in range exactly up to `22 ^ 4 - 1` (R103). -/
theorem unpackQuots_wf_iff {c : Nat} (h : c ≤ 238327) : (unpackQuots c).wf = true ↔ c ≤ 234255 := by
  obtain ⟨h3, h2, h1, h0⟩ := unpackQuots_toNat h
  simp only [Quots4.wf, quotOk, h0, h1, h2, h3, Bool.and_eq_true, decide_eq_true_eq]
  omega

/-! ### What the two units deliver -/

/-- PACK delivers exactly the triples of digits that denote the composite of a quadruple in range (R91, R92). -/
theorem packResult_eq_iff {q : Quots4} {e : Digits3} :
    packResult q = ⟨.none, some e⟩ ↔ q.wf = true ∧ e.wf = true ∧ digits3Value e = quots4Value q := by
  cases hq : q.wf with
  | false => simp [packResult_of_not_wf hq, raise]
  | true =>
    have hle : quots4Value q ≤ 238327 := (quots4Value_le_of_wf hq).trans (by decide)
    simp only [packResult_of_wf hq, deliver, UnitResult.mk.injEq, Option.some.injEq, true_and]
    constructor
    · rintro rfl
      exact ⟨packDigits_wf _, digits3Value_packDigits hle⟩
    · rintro ⟨he, hv⟩
      exact digits3Value_injective_of_wf (packDigits_wf _) he ((digits3Value_packDigits hle).trans hv.symm)

/-- UNPACK delivers exactly the quadruple in range whose composite the triple of digits denotes (R101, R103). -/
theorem unpackResult_eq_iff {e : Digits3} {q : Quots4} :
    unpackResult e = ⟨.none, some q⟩ ↔ q.wf = true ∧ e.wf = true ∧ digits3Value e = quots4Value q := by
  cases he : e.wf with
  | false => simp [unpackResult_of_not_wf he, raise]
  | true =>
    have hle := digits3Value_le_of_wf he
    have hvalue := quots4Value_unpackQuots hle
    rw [unpackResult_of_wf he, UnitResult.mk.injEq, Option.some.injEq]
    constructor
    · rintro ⟨hclear, rfl⟩
      refine ⟨(unpackQuots_wf_iff hle).2 ?_, rfl, hvalue.symm⟩
      by_contra hr
      rw [if_pos (by omega)] at hclear
      cases hclear
    · rintro ⟨hq, -, hv⟩
      have hlt := quots4Value_le_of_wf hq
      exact ⟨if_neg (by omega),
        quots4Value_injective_of_wf ((unpackQuots_wf_iff hle).2 (by omega)) hq (hvalue.trans hv)⟩

/-- The two units deliver each other's operands. -/
theorem packResult_eq_iff_unpackResult_eq {q : Quots4} {e : Digits3} :
    packResult q = ⟨.none, some e⟩ ↔ unpackResult e = ⟨.none, some q⟩ :=
  packResult_eq_iff.trans unpackResult_eq_iff.symm

theorem pack_answers_of_result {q : Quots4} {e : Digits3} (s : State) (h : packResult q = ⟨.none, some e⟩) :
    Answers (.pack q) s (.packer e .none) s.draws := by
  rw [Answers, exec, execPack, h]
  rfl

/-- Under code 0 and under `E_RANGE` alike UNPACK shows what it computed. -/
theorem unpack_answers_of_result {e : Digits3} {q : Quots4} {c : ErrCode} (s : State)
    (h : unpackResult e = ⟨c, some q⟩) : Answers (.unpack e) s (.unpacker q c) s.draws := by
  rw [Answers, exec, execUnpack, h]
  rfl

/-- What UNPACK shows under a code other than `E_DIGIT` is what it computed. -/
theorem unpackResult_of_answers {e : Digits3} {s : State} {q : Quots4} {c : ErrCode} {n : Nat}
    (h : Answers (.unpack e) s (.unpacker q c) n) (hc : c ≠ .eDigit) :
    e.wf = true ∧ unpackResult e = ⟨c, some q⟩ := by
  cases he : e.wf with
  | false =>
    obtain ⟨hout, -⟩ := answers_unique h (unpack_reports s he)
    exact absurd (Outputs.unpacker.inj hout).2 hc
  | true =>
    obtain ⟨hout, -⟩ := answers_unique h (unpack_shows s he)
    obtain ⟨rfl, rfl⟩ := Outputs.unpacker.inj hout
    exact ⟨rfl, unpackResult_of_wf he⟩

/-! ### PACK -/

/-- Settles O20: the digits are those peeled from the composite, which is below `62 ^ 3`. -/
theorem packDigitsCarryTheComposite : Obligations.PackDigitsCarryTheComposite := by
  intro q s hq
  have hle := quots4Value_le_of_wf hq
  refine ⟨_, pack_delivers s hq, ?_⟩
  simp only [packDigits_eq, BitVec.toNat_ofNat]
  omega

/-- Settles O22: equal results denote equal composites, and the canonical triples are those that UNPACK delivers a
quadruple for. -/
theorem packIsInjectiveOntoTheCanonicalTriples : Obligations.PackIsInjectiveOntoTheCanonicalTriples := by
  refine ⟨fun q p hq hp h => ?injective, fun e => ⟨?canonical, ?result⟩⟩
  case injective =>
    obtain ⟨-, -, hvq⟩ := packResult_eq_iff.1 (packResult_of_wf hq)
    obtain ⟨-, -, hvp⟩ := packResult_eq_iff.1 (h.symm.trans (packResult_of_wf hq))
    exact quots4Value_injective_of_wf hq hp (hvq.symm.trans hvp)
  case canonical =>
    rintro ⟨q, hq, h⟩
    obtain ⟨-, he, hv⟩ := packResult_eq_iff.1 h
    exact ⟨he, hv.trans_le (quots4Value_le_of_wf hq)⟩
  case result =>
    rintro ⟨he, hle⟩
    have hle' := digits3Value_le_of_wf he
    have hwf := (unpackQuots_wf_iff hle').2 hle
    exact ⟨_, hwf, packResult_eq_iff.2 ⟨hwf, he, (quots4Value_unpackQuots hle').symm⟩⟩

/-! ### UNPACK -/

/-- Settles O24: the quotients shown, as numbers (`unpackQuots_toNat`). -/
theorem unpackHasTheClosedForm : Obligations.UnpackHasTheClosedForm := by
  intro e s he
  have hle := digits3Value_le_of_wf he
  obtain ⟨h3, h2, h1, h0⟩ := unpackQuots_toNat hle
  refine ⟨_, _, unpack_shows s he, h3, h2, h1, h0, (quots4Value_unpackQuots hle).symm, ?top⟩
  case top =>
    rw [h3]
    omega

/-- Settles O27: law (a) in the state PACK leaves. -/
theorem unpackInvertsPack : Obligations.UnpackInvertsPack := by
  intro q s hq
  have hpack := packResult_of_wf hq
  have h := pack_answers_of_result s hpack
  exact ⟨_, _, h, h, unpack_answers_of_result _ (packResult_eq_iff_unpackResult_eq.1 hpack)⟩

/-- Settles O28: under code 0 law (a) read backwards; under `E_RANGE` the value is 234256 or more, so the quotients
shown are not all in range. -/
theorem packInvertsUnpackAndRefusesUnusedTrailers : Obligations.PackInvertsUnpackAndRefusesUnusedTrailers := by
  refine fun e s q n => ⟨fun h t => ?inverse, fun h t => ⟨_, pack_reports t ?outOfRange⟩⟩
  case inverse =>
    obtain ⟨-, hresult⟩ := unpackResult_of_answers h (by decide)
    exact pack_answers_of_result t (packResult_eq_iff_unpackResult_eq.2 hresult)
  case outOfRange =>
    obtain ⟨he, hresult⟩ := unpackResult_of_answers h (by decide)
    have hle := digits3Value_le_of_wf he
    rw [unpackResult_of_wf he, UnitResult.mk.injEq, Option.some.injEq] at hresult
    obtain ⟨hcode, rfl⟩ := hresult
    by_contra hq
    have hin := (unpackQuots_wf_iff hle).1 ((Bool.not_eq_false _).mp hq)
    rw [if_neg (by omega)] at hcode
    cases hcode

end Sys2Proof.Machine
end

section
/-!
Frames and sequences of operations (`spec/20_memory.md`, `spec/60_exceptions.md`). What a sequence of operations does is
said once (`runOps_answers`): it runs to its end and leaves one sample of each operation, in order; what such a sample
shows is settled by the operation's answer in any one state.
-/

namespace Sys2Proof.Machine

/-! ### The frame of one operation -/

/-- The ports of the units that an operation is not of. -/
theorem present_frame (x : Inputs) (i : Instr) :
    (i.coreUnit ≠ .splitter → (x.present i).s_w = x.s_w) ∧
    (i.coreUnit ≠ .composer → (x.present i).c_q = x.c_q ∧ (x.present i).c_d = x.c_d) ∧
    (i.coreUnit ≠ .packer → (x.present i).p_q = x.p_q) ∧
    (i.coreUnit ≠ .unpacker → (x.present i).u_e = x.u_e) := by
  cases i with
  | split w => exact ⟨fun h => absurd rfl h, fun _ => ⟨rfl, rfl⟩, fun _ => rfl, fun _ => rfl⟩
  | compose q d => exact ⟨fun _ => rfl, fun h => absurd rfl h, fun _ => rfl, fun _ => rfl⟩
  | pack q => exact ⟨fun _ => rfl, fun _ => ⟨rfl, rfl⟩, fun h => absurd rfl h, fun _ => rfl⟩
  | unpack e => exact ⟨fun _ => rfl, fun _ => ⟨rfl, rfl⟩, fun _ => rfl, fun h => absurd rfl h⟩

/-- Settles O30: the next state is that of `exec_answers`, and the operand is presented to the ports of its unit
alone. -/
theorem anOperationTouchesOnlyItsOwnUnit : Obligations.AnOperationTouchesOnlyItsOwnUnit := by
  intro i s
  obtain ⟨out, h, -, -⟩ := exec_answers i s
  refine ⟨_, ⟨i, out⟩, h, rfl, rfl, rfl, rfl, ?own, present_frame s.inputs i⟩
  case own =>
    cases i with
    | compose q d => exact ⟨rfl, rfl⟩
    | split | pack | unpack => rfl

/-! ### Sequences of operations -/

/-- The sample is one that the operation leaves in some state. -/
def Shows (i : Instr) (x : Sample) : Prop := x.op = i ∧ ∃ s n, Answers i s x.out n

theorem Shows.err_eq {i : Instr} {x : Sample} (h : Shows i x) : x.out.err = contractErr i := by
  obtain ⟨-, s, n, ha⟩ := h
  exact ha.err_eq

/-- Specified data is the same in every state (R20). -/
theorem Shows.out_eq {i : Instr} {x : Sample} (h : Shows i x) (hspec : unspecifiedData i = false) {s : State}
    {out : Outputs} {n : Nat} (ha : Answers i s out n) : x.out = out := by
  obtain ⟨-, s', n', ha'⟩ := h
  exact ha'.out_eq ha hspec

theorem Shows.agrees {i : Instr} {x y : Sample} (hx : Shows i x) (hy : Shows i y) : x.Agrees y := by
  obtain ⟨rfl, s, n, ha⟩ := hx
  obtain ⟨hop, s', n', ha'⟩ := hy
  obtain ⟨-, herr, hout⟩ := ha.agrees ha'
  exact ⟨hop.symm, herr, hout⟩

theorem unspecifiedData_of_clear {i : Instr} (h : contractErr i = .none) : unspecifiedData i = false := by
  cases i <;> simp only [unspecifiedData, h]

/-- Everything a sequence of operations can do: it runs to its end, presents its operands in order, leaves one sample of
each operation and makes one draw for each whose data is unspecified. -/
theorem runOps_answers (is : List Instr) (s : State) : ∃ xs, List.Forall₂ Shows is xs ∧
    runOps is s = .next
      { inputs := is.foldl Inputs.present s.inputs, script := s.script, samples := s.samples ++ xs,
        draws := s.draws + is.countP unspecifiedData } := by
  induction is generalizing s with
  | nil => exact ⟨[], .nil, by simp [runOps]⟩
  | cons i is ih =>
    obtain ⟨out, ha, -, -⟩ := exec_answers i s
    obtain ⟨xs, hxs, hrun⟩ := ih
      ⟨s.inputs.present i, s.script, s.samples ++ [⟨i, out⟩], if unspecifiedData i then s.draws + 1 else s.draws⟩
    refine ⟨⟨i, out⟩ :: xs, .cons ⟨rfl, s, _, ha⟩ hxs, ?_⟩
    rw [Answers] at ha
    rw [runOps, ha]
    refine hrun.trans ?_
    cases hu : unspecifiedData i <;> simp [hu, Nat.add_comm, Nat.add_left_comm]

/-- Settles O32: either order leaves one sample of each operation, and the samples of one operation agree; the draws are
counted over the same operations, and presentations to different units commute. -/
theorem operationsDoNotInteract : Obligations.OperationsDoNotInteract := by
  intro i j s
  obtain ⟨_, hxs, hrun⟩ := runOps_answers [i, j] s
  obtain ⟨_, hys, hrun'⟩ := runOps_answers [j, i] s
  rcases hxs with _ | ⟨hx, _ | ⟨hy, _ | _⟩⟩
  rcases hys with _ | ⟨hy', _ | ⟨hx', _ | _⟩⟩
  refine ⟨_, _, _, _, _, _, hrun, hrun', rfl, rfl, hx.1, hy.1, hx.agrees hx', hy.agrees hy', ?draws, rfl,
    fun h => ?ports⟩
  case draws => simp only [(List.Perm.swap j i []).countP_eq]
  case ports => exact present_comm s.inputs i j h

end Sys2Proof.Machine
end

section
/-!
The host's moves (`spec/70_reset_and_hazards.md`). A step makes the move at the head of the host's list
(`step_of_script`); which moves stop, and with which fault, is said once (`step_next_or_fault`), and every invariant is
derived from `step_next`.
-/

namespace Sys2Proof.Machine

/-! ### One step -/

theorem step_of_script {s : State} {m : HostMove} {ms : List HostMove} (h : s.script = m :: ms) :
    step s = makeMove m { s with script := ms } := by
  rw [step, stepOf, h]
  rfl

theorem step_of_script_nil {s : State} (h : s.script = []) : step s = .fault .runEnded := by
  rw [step, stepOf, h]

/-- A sample of a unit whose ports are all held is `exec` of the operation on them. -/
theorem step_sample_of_operand {s : State} {u : CoreUnit} {ms : List HostMove} {i : Instr}
    (h : s.script = .sample u :: ms) (hi : s.inputs.operand u = some i) : step s = exec i { s with script := ms } := by
  rw [step_of_script h, makeMove, sampleUnit, hi]

theorem step_sample_of_no_operand {s : State} {u : CoreUnit} {ms : List HostMove}
    (h : s.script = .sample u :: ms) (hi : s.inputs.operand u = none) : step s = .fault (.inputsNotHeld u) := by
  rw [step_of_script h, makeMove, sampleUnit, hi]

theorem step_command {s : State} {w : OpWord} {ms : List HostMove} (h : s.script = .command w :: ms) :
    step s = exec (decodeWord w) { s with script := ms } :=
  step_of_script h

/-- An operation answers a next state. -/
theorem exec_next (i : Instr) (s : State) : ∃ t, exec i s = .next t := by
  obtain ⟨out, h, -, -⟩ := exec_answers i s
  exact ⟨_, h⟩

/-- A move leads to a next state unless it samples a unit whose ports hold no operand. -/
theorem step_next_or_fault {s : State} {m : HostMove} {ms : List HostMove} (h : s.script = m :: ms) :
    (∃ t, step s = .next t) ∨
      ∃ u, m = .sample u ∧ s.inputs.operand u = none ∧ step s = .fault (.inputsNotHeld u) := by
  cases m with
  | drive | change | release => exact .inl ⟨_, step_of_script h⟩
  | command w => exact .inl (step_command h ▸ exec_next _ _)
  | sample u =>
    cases hi : s.inputs.operand u with
    | none => exact .inr ⟨u, rfl, hi, step_sample_of_no_operand h hi⟩
    | some i => exact .inl (step_sample_of_operand h hi ▸ exec_next _ _)

theorem step_eq_runEnded_iff {s : State} : step s = .fault .runEnded ↔ s.script = [] := by
  refine ⟨fun h => ?_, step_of_script_nil⟩
  cases hs : s.script with
  | nil => rfl
  | cons m ms =>
    rcases step_next_or_fault hs with ⟨t, ht⟩ | ⟨u, -, -, hu⟩
    · cases ht.symm.trans h
    · cases hu.symm.trans h

theorem step_eq_inputsNotHeld_iff {s : State} {u : CoreUnit} : step s = .fault (.inputsNotHeld u) ↔
    (∃ ms, s.script = .sample u :: ms) ∧ s.inputs.operand u = none := by
  refine ⟨fun h => ?_, fun ⟨⟨ms, hs⟩, hu⟩ => step_sample_of_no_operand hs hu⟩
  cases hs : s.script with
  | nil => cases (step_of_script_nil hs).symm.trans h
  | cons m ms =>
    rcases step_next_or_fault hs with ⟨t, ht⟩ | ⟨v, rfl, hv, hstep⟩
    · cases ht.symm.trans h
    · cases hstep.symm.trans h
      exact ⟨⟨ms, rfl⟩, hv⟩

/-- Settles O36: the fault of `step_eq_inputsNotHeld_iff`; a unit has no operand exactly when one of its ports is not
held. -/
theorem noValueIsSampledFromInputsNotHeld : Obligations.NoValueIsSampledFromInputsNotHeld := by
  intro s u
  refine step_eq_inputsNotHeld_iff.trans (and_congr_right fun _ => ?_)
  rcases s with ⟨⟨sw, cq, cd, pq, ue⟩, ms, xs, n⟩
  cases u with
  | splitter => cases sw <;> simp [Inputs.operand]
  | composer => cases cq <;> cases cd <;> simp [Inputs.operand]
  | packer => cases pq <;> simp [Inputs.operand]
  | unpacker => cases ue <;> simp [Inputs.operand]

/-- Settles O38: a list of moves that is not empty has a first move, and `step_next_or_fault` says what it leads to. -/
theorem theOnlyStopsAreTheEndAndUnheldInputs : Obligations.TheOnlyStopsAreTheEndAndUnheldInputs := by
  refine fun s => ⟨step_eq_runEnded_iff, fun r h => ?refusal, fun m ms hs => step_next_or_fault hs,
    fun i => exec_next i s⟩
  case refusal =>
    cases hs : s.script with
    | nil => cases (step_of_script_nil hs).symm.trans h
    | cons m ms =>
      rcases step_next_or_fault hs with ⟨t, ht⟩ | ⟨u, -, -, hu⟩
      · cases ht.symm.trans h
      · cases hu.symm.trans h

/-! ### Operations the host starts -/

/-- Settles O33: the step of a command, with `decodeWord_encode` for the word of an operation. -/
theorem stepRunsTheDecodedOperation : Obligations.StepRunsTheDecodedOperation := by
  refine ⟨fun s w ms h => step_command h, fun s i ms h => ?encoded⟩
  case encoded => rw [step_command h, decodeWord_encode]

/-- A placed operation word is the next command, in a table of any sufficient width. -/
theorem step_withFetchWord {nbits : Nat} (h : 67 ≤ nbits) (s : State) (w : OpWord) :
    step (s.withFetchWord nbits w.toNat) = exec (decodeWord w) s := by
  have hplaced : s.withFetchWord nbits w.toNat = s.setScript (.command w :: s.script) := by
    rw [State.withFetchWord, opWord_toNat_mod h, placeCommand, if_pos w.isLt, BitVec.ofNat_toNat, BitVec.setWidth_eq]
  rw [hplaced, step_command (State.setScript_script ..)]
  rfl

/-- Settles O34: the placed word decodes to the operation it encodes. -/
theorem thePlacedOperationRunsNext : Obligations.ThePlacedOperationRunsNext := by
  intro i s
  rw [step_withFetchWord (Nat.le_refl 67), step_withFetchWord (by decide : 67 ≤ 72), decodeWord_encode]
  exact ⟨rfl, rfl⟩

/-- Settles O35: the held values are the unit's operand; presenting it again leaves the ports as they are
(`present_operand`). -/
theorem samplingReadsTheHeldOperand : Obligations.SamplingReadsTheHeldOperand := by
  refine fun s ms => ⟨fun w hs hw => step_sample_of_operand hs ?word,
    fun q d hs hq hd => step_sample_of_operand hs ?pair, fun q hs hq => step_sample_of_operand hs ?quotients,
    fun e hs he => step_sample_of_operand hs ?digits, fun u t hs ht => ?ports⟩
  case word => simp only [Inputs.operand, hw]
  case pair => simp only [Inputs.operand, hq, hd]
  case quotients => simp only [Inputs.operand, hq]
  case digits => simp only [Inputs.operand, he]
  case ports =>
    cases hi : s.inputs.operand u with
    | none => cases (step_sample_of_no_operand hs hi).symm.trans ht
    | some i =>
      obtain ⟨out, ha, -, -⟩ := exec_answers i { s with script := ms }
      rw [step_sample_of_operand hs hi, ha] at ht
      cases ht
      exact (present_operand hi).2

/-- Settles O37: one case for each port. -/
theorem aHostMoveTouchesItsPortAlone : Obligations.AHostMoveTouchesItsPortAlone := by
  refine fun s ms => ⟨fun _ h => step_of_script h, fun _ h => step_of_script h, fun _ h => step_of_script h,
    fun _ h => step_of_script h, fun _ h => step_of_script h,
    fun p h => ⟨_, step_of_script h, rfl, rfl, rfl, ?change⟩, fun p h => ⟨_, step_of_script h, rfl, rfl, rfl, ?release⟩⟩
  case change => cases p <;> exact ⟨rfl, rfl, rfl, rfl, rfl⟩
  case release => cases p <;> exact ⟨rfl, rfl, rfl, rfl, rfl⟩

/-! ### The record and the count of draws -/

/-- Settles O39: the two cases of `step_next`. -/
theorem aStepTakesOneMoveAndKeepsTheRecord : Obligations.AStepTakesOneMoveAndKeepsTheRecord := by
  intro s t h
  obtain ⟨i, out, m, hs, hm, hsamples, -⟩ | ⟨m, hs, hsamples, hdraws, hns, hnc⟩ := step_next h
  · exact ⟨m, hs, .inl ⟨⟨i, out⟩, hsamples, hm⟩⟩
  · exact ⟨m, hs, .inr ⟨hsamples, hdraws, hns, hnc⟩⟩

/-- What an operation shows meets its unit's arithmetic contract. -/
theorem Answers.genuine {i : Instr} {s : State} {out : Outputs} {n : Nat} (h : Answers i s out n) :
    Sample.Genuine ⟨i, out⟩ := by
  cases i with
  | split w =>
    obtain ⟨rfl, -⟩ := answers_unique h (split_answers w s)
    refine ⟨(pairValue_split w).symm, decide_eq_true ?_, splitDigits_wf w⟩
    rw [splitQuot_toNat]
    exact word_div_le w
  | compose q d =>
    by_cases hc : contractErr (.compose q d) = .none
    · obtain ⟨rfl, -⟩ := answers_unique h (compose_delivers s hc)
      obtain ⟨-, -, hlt⟩ := contractErr_compose_eq_none_iff.1 hc
      exact ⟨hc.symm, fun _ => toNat_ofNat_pairValue hlt⟩
    · obtain ⟨rfl, -⟩ := answers_unique h (compose_reports s rfl hc)
      exact ⟨rfl, fun hn => absurd hn hc⟩
  | pack q =>
    cases hq : q.wf with
    | false =>
      obtain ⟨rfl, -⟩ := answers_unique h (pack_reports s hq)
      exact ⟨(if_pos hq).symm, nofun⟩
    | true =>
      obtain ⟨rfl, -⟩ := answers_unique h (pack_delivers s hq)
      obtain ⟨-, he, hv⟩ := packResult_eq_iff.1 (packResult_of_wf hq)
      exact ⟨h.err_eq, fun _ => ⟨hv, he⟩⟩
  | unpack e =>
    cases he : e.wf with
    | false =>
      obtain ⟨rfl, -⟩ := answers_unique h (unpack_reports s he)
      exact ⟨h.err_eq, fun hn => absurd rfl hn⟩
    | true =>
      obtain ⟨rfl, -⟩ := answers_unique h (unpack_shows s he)
      have hle := digits3Value_le_of_wf he
      obtain ⟨h3, h2, h1, h0⟩ := unpackQuots_toNat hle
      refine ⟨h.err_eq, fun _ => ⟨quots4Value_unpackQuots hle, ?_⟩⟩
      simp only [quotOk, decide_eq_true_eq, h0, h1, h2, h3]
      omega

/-- Settles O40: a step records nothing or one more sample, and that one is genuine (`Answers.genuine`). -/
theorem everyStepKeepsTheRecordGenuine : Obligations.EveryStepKeepsTheRecordGenuine := by
  intro s t hs hstep
  obtain ⟨i, out, m, -, -, hsamples, ha⟩ | ⟨m, -, hsamples, -, -, -⟩ := step_next hstep
  · rw [State.AllGenuine, hsamples, List.forall_mem_append, List.forall_mem_singleton]
    exact ⟨hs, ha.genuine⟩
  · rw [State.AllGenuine, hsamples]
    exact hs

/-- The draws an operation makes: one if its data is unspecified (R11). -/
theorem Answers.draws_eq {i : Instr} {s : State} {out : Outputs} {n : Nat} (h : Answers i s out n) :
    n = if unspecifiedData i then s.draws + 1 else s.draws := by
  obtain ⟨o, ho, -, -⟩ := exec_answers i s
  exact (answers_unique h ho).2

/-- Settles O41: a step records nothing and draws nothing, or records one sample and draws for it if its data is
unspecified (`Answers.draws_eq`). -/
theorem everyStepKeepsTheDrawsCounted : Obligations.EveryStepKeepsTheDrawsCounted := by
  intro s t hs hstep
  rw [State.DrawsCounted] at hs ⊢
  obtain ⟨i, out, m, -, -, hsamples, ha⟩ | ⟨m, -, hsamples, hdraws, -, -⟩ := step_next hstep
  · rw [hsamples, ha.draws_eq, List.filter_append, List.length_append, ← hs, State.setScript_draws]
    cases hu : unspecifiedData i <;> simp [hu]
  · rw [hsamples, hdraws, hs]

/-! ### Reset -/

/-- Settles O42: the record is empty, so each of its samples is genuine and none has unspecified data. -/
theorem resetMeetsTheInvariants : Obligations.ResetMeetsTheInvariants :=
  ⟨List.forall_mem_nil _, rfl⟩

/-- Settles O43: no port is held, so no unit has an operand, and a sample of it is the fault of
`step_sample_of_no_operand`. -/
theorem resetLeavesNothing : Obligations.ResetLeavesNothing := by
  have hoperand (u : CoreUnit) : State.reset.inputs.operand u = none := by cases u <;> rfl
  exact ⟨rfl, rfl, rfl, hoperand, fun u ms => step_sample_of_no_operand rfl (hoperand u), step_of_script_nil rfl⟩

end Sys2Proof.Machine
end

section
/-!
The alphabet by character ranges (`spec/45_host_alphabet_codec.md` R110, R111). A run of characters holds, at place `k`,
the character of code `first + k` (`charRun_getElem?`); the alphabet is three runs, and `charToDigit` inverts reading
it.
-/

namespace Sys2Proof.Machine

theorem charRun_getElem? (first last : Char) (k : Nat) : (charRun first last)[k]? =
    if k < last.toNat + 1 - first.toNat then some (Char.ofNat (first.toNat + k)) else none := by
  rw [charRun, List.getElem?_map]
  split
  · next h => rw [List.getElem?_range h, Option.map_some]
  · next h => rw [List.getElem?_eq_none (by simpa using h), Option.map_none]

/-- Settles O44: the alphabet is the runs of 10, 26 and 26 characters, one after the other. -/
theorem alphabetFollowsTheThreeRuns : Obligations.AlphabetFollowsTheThreeRuns := by
  intro d
  have hdigits : (charRun '0' '9').length = 10 := rfl
  have hcapitals : (charRun '0' '9' ++ charRun 'A' 'Z').length = 36 := rfl
  rw [digitToChar, alphabet]
  by_cases h10 : d < 10
  · rw [if_pos h10, List.getElem?_append_left (by omega), List.getElem?_append_left (by omega), charRun_getElem?]
    exact if_pos h10
  rw [if_neg h10]
  by_cases h36 : d < 36
  · rw [if_pos h36, List.getElem?_append_left (by omega), List.getElem?_append_right (by omega), charRun_getElem?,
      hdigits]
    exact if_pos (show d - 10 < 26 by omega)
  rw [if_neg h36, List.getElem?_append_right (by omega), charRun_getElem?, hcapitals]
  by_cases h62 : d < 62
  · rw [if_pos h62]
    exact if_pos (show d - 36 < 26 by omega)
  · rw [if_neg h62]
    exact if_neg (show ¬ d - 36 < 26 by omega)

/-- The code of a digit's character (R110). -/
def charCode (d : Nat) : Nat := if d < 10 then 48 + d else if d < 36 then 65 + (d - 10) else 97 + (d - 36)

theorem charOfNat_eq_iff {n : Nat} (h : n < 128) {c : Char} : Char.ofNat n = c ↔ c.toNat = n := by
  have hvalid : n.isValidChar := .inl (by omega)
  rw [← Char.toNat_inj, Char.toNat_ofNat, if_pos hvalid]
  exact eq_comm

/-- The character of a digit is the one with the digit's code. -/
theorem digitToChar_eq_some_iff {d : Nat} {c : Char} : digitToChar d = some c ↔ d < 62 ∧ c.toNat = charCode d := by
  rw [alphabetFollowsTheThreeRuns, charCode]
  by_cases h10 : d < 10
  · rw [if_pos h10, if_pos h10, Option.some.injEq, and_iff_right (by omega)]
    exact charOfNat_eq_iff (show 48 + d < 128 by omega)
  rw [if_neg h10, if_neg h10]
  by_cases h36 : d < 36
  · rw [if_pos h36, if_pos h36, Option.some.injEq, and_iff_right (by omega)]
    exact charOfNat_eq_iff (show 65 + (d - 10) < 128 by omega)
  rw [if_neg h36, if_neg h36]
  by_cases h62 : d < 62
  · rw [if_pos h62, Option.some.injEq, and_iff_right h62]
    exact charOfNat_eq_iff (show 97 + (d - 36) < 128 by omega)
  · rw [if_neg h62]
    exact iff_of_false nofun (fun h => h62 h.1)

/-- Settles O45: the digits of a character are those whose code it has, and each range holds the codes of one run. -/
theorem charToDigitTestsTheThreeRanges : Obligations.CharToDigitTestsTheThreeRanges := by
  intro c
  have hcode {d : Nat} := charToDigit_eq_some_iff.trans (digitToChar_eq_some_iff (d := d) (c := c))
  change charToDigit c =
    if 48 ≤ c.toNat ∧ c.toNat ≤ 57 then some (c.toNat - 48)
    else if 65 ≤ c.toNat ∧ c.toNat ≤ 90 then some (c.toNat - 65 + 10)
    else if 97 ≤ c.toNat ∧ c.toNat ≤ 122 then some (c.toNat - 97 + 36)
    else none
  split_ifs with hdigit hcapital hsmall
  case neg =>
    rw [Option.eq_none_iff_forall_ne_some]
    intro d hd
    have := hcode.1 hd
    rw [charCode] at this
    split_ifs at this <;> omega
  all_goals
    rw [hcode, charCode]
    split_ifs <;> omega

end Sys2Proof.Machine
end

section
/-!
Decode (`spec/45_host_alphabet_codec.md` R118 to R122). The one fact behind the statements: the units deliver a value on
a string's digit fields exactly when those fields are the ones encode writes for the value (`decodeWords_eq_some_iff`),
and a string over the alphabet is written from its own digit fields and no others (`encode256_eq_ok_iff`).
-/

namespace Sys2Proof.Machine

/-! ### Strings over the alphabet and their digit fields -/

/-- A string that the checks of R118 pass: 43 characters, each with a digit. -/
def OverAlphabet (s : List Char) : Prop := s.length = 43 ∧ ∀ c ∈ s, charToDigit c ≠ none

/-- The digit fields of the characters of a string, position by position. -/
def stringDigits (s : List Char) : List DigitField := (List.range 43).map (digitOfChar s)

/-- The fields of a string are those of its four words and its trailer (R113). -/
theorem stringDigits_eq_spans (s : List Char) : stringDigits s =
    digits10List (wordDigits s 0) ++ digits10List (wordDigits s 1) ++ digits10List (wordDigits s 2) ++
      digits10List (wordDigits s 3) ++ digits3List (trailerDigits s) := rfl

/-- The field a written character came from. -/
theorem digitOfChar_eq {s : List Char} {p : Nat} {d : DigitField} (h : s[p]? = digitToChar d.toNat)
    (hd : d.toNat ≤ 61) : digitOfChar s p = d := by
  obtain ⟨c, hc⟩ := exists_digitToChar hd
  rw [digitOfChar, h, hc, Option.bind_some, charToDigit_eq_some_iff.2 hc, Option.getD_some, BitVec.ofNat_toNat,
    BitVec.setWidth_eq]

/-- In a string over the alphabet each character is that of its field. -/
theorem getElem?_eq_digitToChar {s : List Char} (hs : OverAlphabet s) {p : Nat} (hp : p < 43) :
    s[p]? = digitToChar (digitOfChar s p).toNat := by
  obtain ⟨hlen, hchars⟩ := hs
  have hp' : p < s.length := hlen.symm ▸ hp
  cases hd : charToDigit s[p] with
  | none => exact absurd hd (hchars _ (List.getElem_mem hp'))
  | some d =>
    have hlt := charToDigit_lt hd
    have hfield : (digitOfChar s p).toNat = d := by
      rw [digitOfChar, List.getElem?_eq_getElem hp', Option.bind_some, hd, Option.getD_some, BitVec.toNat_ofNat]
      omega
    rw [hfield, charToDigit_eq_some_iff.1 hd, List.getElem?_eq_getElem hp']

/-- A string over the alphabet is written from its own fields, and from no other 43 digits. -/
theorem charsOf_eq_ok_iff_stringDigits {ds : List DigitField} (hlen : ds.length = 43) (hds : ∀ x ∈ ds, x.toNat ≤ 61)
    {s : List Char} : charsOf ds = .ok s ↔ OverAlphabet s ∧ stringDigits s = ds := by
  constructor
  · intro h
    have hslen : s.length = 43 := (charsOf_length h).trans hlen
    refine ⟨⟨hslen, fun c hc => ?_⟩, List.ext_getElem (by simp [stringDigits, hlen]) fun p _ hp => ?_⟩
    · obtain ⟨d, hd⟩ := charsOf_mem h hc
      rw [hd]
      exact Option.some_ne_none d
    · simp only [stringDigits, List.getElem_map, List.getElem_range]
      exact digitOfChar_eq (charsOf_getElem? h (List.getElem?_eq_getElem hp)) (hds _ (List.getElem_mem hp))
  · rintro ⟨hs, rfl⟩
    refine charsOf_eq_ok_iff.2 (List.forall₂_iff_get.2 ⟨hlen.trans hs.1.symm, fun p hp hp' => ?_⟩)
    have hget := getElem?_eq_digitToChar hs (hlen ▸ hp)
    rw [List.getElem?_eq_getElem hp'] at hget
    simpa [stringDigits] using hget.symm

theorem wordDigits_wf {s : List Char} (hs : OverAlphabet s) {i : Nat} (hi : i < 4) : (wordDigits s i).wf = true := by
  obtain ⟨hlen, hchars⟩ := hs
  have hdigit {k : Nat} (hk : k < 10) : (digitOfChar s (10 * i + k)).toNat ≤ 61 := digitOfChar_le hchars (by omega)
  simp only [digits10_wf_iff, digits10List, wordDigits, List.forall_mem_cons, List.not_mem_nil, false_imp_iff,
    implies_true, and_true]
  exact ⟨hdigit (k := 0) (by decide), hdigit (by decide), hdigit (by decide), hdigit (by decide), hdigit (by decide),
    hdigit (by decide), hdigit (by decide), hdigit (by decide), hdigit (by decide), hdigit (by decide)⟩

/-! ### The fields encode writes for a value -/

/-- The string's fields are those SPLIT and PACK show for the value (R113). -/
structure LaysOut (v : Value256) (s : List Char) : Prop where
  word0 : splitDigits v.w0 = wordDigits s 0
  word1 : splitDigits v.w1 = wordDigits s 1
  word2 : splitDigits v.w2 = wordDigits s 2
  word3 : splitDigits v.w3 = wordDigits s 3
  trailer : packResult (splitQuots v) = ⟨.none, some (trailerDigits s)⟩

theorem digits10List_injective {d d' : Digits10} (h : digits10List d = digits10List d') : d = d' :=
  digits10Values_injective (congrArg (List.map BitVec.toNat) h)

theorem digits3List_injective {e e' : Digits3} (h : digits3List e = digits3List e') : e = e' := by
  cases e
  cases e'
  simpa only [digits3List, List.cons.injEq, and_true, Digits3.mk.injEq] using h

theorem stringDigits_eq_encodeDigits_iff {v : Value256} {s : List Char} :
    stringDigits s = encodeDigits v ↔ LaysOut v s := by
  rw [stringDigits_eq_spans, encodeDigits]
  constructor
  · intro h
    obtain ⟨h, ht⟩ := List.append_inj h rfl
    obtain ⟨h, h3⟩ := List.append_inj h rfl
    obtain ⟨h, h2⟩ := List.append_inj h rfl
    obtain ⟨h0, h1⟩ := List.append_inj h rfl
    refine ⟨(digits10List_injective h0).symm, (digits10List_injective h1).symm, (digits10List_injective h2).symm,
      (digits10List_injective h3).symm, ?_⟩
    rw [packResult_splitQuots, digits3List_injective ht]
  · intro h
    have ht : trailerOf v = trailerDigits s :=
      Option.some.inj (UnitResult.mk.inj ((packResult_splitQuots v).symm.trans h.trailer)).2
    rw [h.word0, h.word1, h.word2, h.word3, ht]

/-- A string encodes a value exactly when it is over the alphabet and its fields are the value's. -/
theorem encode256_eq_ok_iff {v : Value256} {s : List Char} : encode256 v = .ok s ↔ OverAlphabet s ∧ LaysOut v s := by
  rw [encode256_eq, charsOf_eq_ok_iff_stringDigits (encodeDigits_length v) (encodeDigits_le v),
    stringDigits_eq_encodeDigits_iff]

/-! ### What the units deliver on a string's fields -/

theorem composeResult_eq_iff {q : QuotField} {d : Digits10} {w : Word} :
    composeResult q d = ⟨.none, some w⟩ ↔ splitQuot w = q ∧ splitDigits w = d := by
  constructor
  · intro h
    by_cases hc : contractErr (.compose q d) = .none
    · obtain rfl := Option.some.inj (UnitResult.mk.inj ((composeResult_of_none hc).symm.trans h)).2
      exact contractErr_compose_eq_none_iff_split.1 hc
    · exact absurd (UnitResult.mk.inj ((composeResult_of_error hc).symm.trans h)).1 hc
  · rintro ⟨rfl, rfl⟩
    rw [composeResult_of_none (contractErr_compose_split w), pairValue_split, BitVec.ofNat_toNat, BitVec.setWidth_eq]
    rfl

/-- The units deliver a value's words exactly on the fields of the value. -/
theorem decodeWords_eq_some_iff {s : List Char} {v : Value256} : decodeWords s = some v ↔ LaysOut v s := by
  constructor
  · intro h
    rw [decodeWords] at h
    split at h
    · next q hu =>
      split at h
      · next w0 w1 w2 w3 hc0 hc1 hc2 hc3 =>
        cases h
        obtain ⟨hq0, hd0⟩ := composeResult_eq_iff.1 hc0
        obtain ⟨hq1, hd1⟩ := composeResult_eq_iff.1 hc1
        obtain ⟨hq2, hd2⟩ := composeResult_eq_iff.1 hc2
        obtain ⟨hq3, hd3⟩ := composeResult_eq_iff.1 hc3
        refine ⟨hd0, hd1, hd2, hd3, ?_⟩
        rw [splitQuots, hq0, hq1, hq2, hq3]
        exact packResult_eq_iff_unpackResult_eq.2 hu
      · cases h
    · cases h
  · intro h
    have hu := packResult_eq_iff_unpackResult_eq.1 h.trailer
    have hc0 := composeResult_eq_iff.2 ⟨rfl, h.word0⟩
    have hc1 := composeResult_eq_iff.2 ⟨rfl, h.word1⟩
    have hc2 := composeResult_eq_iff.2 ⟨rfl, h.word2⟩
    have hc3 := composeResult_eq_iff.2 ⟨rfl, h.word3⟩
    simp only [decodeWords, hu, splitQuots, hc0, hc1, hc2, hc3]

/-! ### The checks that come first -/

theorem mem_of_scanOrder {order : List Nat} (h : ScanOrder order) {p : Nat} : p ∈ order ↔ p < 43 := by
  rw [h.mem_iff, ascendingOrder, List.mem_range]

/-- The search of all positions finds nothing exactly when every character has a digit. -/
theorem firstInvalid_eq_none_iff {order : List Nat} (horder : ScanOrder order) {s : List Char} (hlen : s.length = 43) :
    firstInvalid s order = none ↔ ∀ c ∈ s, charToDigit c ≠ none := by
  constructor
  · intro h c hc
    obtain ⟨p, hp, rfl⟩ := List.mem_iff_getElem.1 hc
    exact firstInvalid_none h p ((mem_of_scanOrder horder).2 (hlen ▸ hp)) _ (List.getElem?_eq_getElem hp)
  · intro h
    cases hf : firstInvalid s order with
    | none => rfl
    | some pc =>
      obtain ⟨-, hc, hn⟩ := firstInvalid_some hf
      exact absurd hn (h _ (List.mem_of_getElem? hc))

theorem decodeCheck_eq_none_iff {order : List Nat} (horder : ScanOrder order) {s : List Char} :
    decodeCheck order s = none ↔ OverAlphabet s := by
  rw [decodeCheck_none]
  exact and_congr_right (firstInvalid_eq_none_iff horder)

/-- In ascending order the search finds the leftmost invalid character. -/
theorem firstInvalid_leftmost {s : List Char} {l : List Nat} (hl : l.Pairwise (· < ·)) {p : Nat} {c : Char}
    (h : firstInvalid s l = some (p, c)) :
    ∀ p' ∈ l, p' < p → ∀ c', s[p']? = some c' → charToDigit c' ≠ none := by
  induction l with
  | nil => cases h
  | cons q ps ih =>
    obtain ⟨hq, hps⟩ := List.pairwise_cons.1 hl
    intro p' hp' hlt c' hc'
    simp only [firstInvalid] at h
    split at h
    · next hnone =>
      rcases List.mem_cons.1 hp' with rfl | hp'
      · cases hnone.symm.trans hc'
      · exact ih hps h p' hp' hlt c' hc'
    · next x hx =>
      split at h
      · next d hd =>
        rcases List.mem_cons.1 hp' with rfl | hp'
        · cases hx.symm.trans hc'
          rw [hd]
          exact Option.some_ne_none d
        · exact ih hps h p' hp' hlt c' hc'
      · cases h
        rcases List.mem_cons.1 hp' with rfl | hp'
        · exact absurd hlt (Nat.lt_irrefl _)
        · exact absurd hlt (Nat.lt_asymm (hq _ hp'))

/-! ### Decode -/

theorem decode256_of_check_error {order : List Nat} {s : List Char} {e : DecodeError}
    (onRange : List Char → DecodeOutcome) (h : decodeCheck order s = some e) :
    decode256 order onRange s = .error e := by
  rw [decode256, h]

/-- An encoding decodes to the value it encodes. -/
theorem decode256_of_encode256 {order : List Nat} (horder : ScanOrder order) (onRange : List Char → DecodeOutcome)
    {v : Value256} {s : List Char} (h : encode256 v = .ok s) : decode256 order onRange s = .value v := by
  obtain ⟨hs, hlays⟩ := encode256_eq_ok_iff.1 h
  rw [decode256, (decodeCheck_eq_none_iff horder).2 hs, decodeWords_eq_some_iff.2 hlays]

/-- Any other string over the alphabet is left to the host. -/
theorem decode256_of_not_canonical {order : List Nat} (horder : ScanOrder order) (onRange : List Char → DecodeOutcome)
    {s : List Char} (hs : OverAlphabet s) (h : ∀ v, encode256 v ≠ .ok s) : decode256 order onRange s = onRange s := by
  have hwords : decodeWords s = none := by
    rw [Option.eq_none_iff_forall_ne_some]
    exact fun v hv => h v (encode256_eq_ok_iff.2 ⟨hs, decodeWords_eq_some_iff.1 hv⟩)
  rw [decode256, (decodeCheck_eq_none_iff horder).2 hs, hwords]

/-- Settles O51: the two kinds of strings over the alphabet. -/
theorem stringsThatAreNotCanonicalAreLeftOpen : Obligations.StringsThatAreNotCanonicalAreLeftOpen := by
  intro order onRange s horder hlen hchars
  by_cases h : ∃ v, encode256 v = .ok s
  · obtain ⟨v, hv⟩ := h
    exact .inl ⟨v, hv, decode256_of_encode256 horder onRange hv⟩
  · have hne := not_exists.1 h
    exact .inr ⟨hne, decode256_of_not_canonical horder onRange ⟨hlen, hchars⟩ hne⟩

/-- Settles O49: a string of 43 characters fails the checks with another error, or decodes to the value it encodes, or
gets the host's answer. -/
theorem onlyTheLengthGivesWrongLength : Obligations.OnlyTheLengthGivesWrongLength := by
  intro order onRange s
  have hwrong (h : s.length ≠ 43) : decode256 order onRange s = .error .wrongLength :=
    decode256_of_check_error onRange (decodeCheck_wrongLength.2 h)
  refine ⟨hwrong, fun horder => ⟨fun h => ?only, ?given⟩⟩
  case only =>
    cases hcheck : decodeCheck order s with
    | some e =>
      rw [decode256_of_check_error onRange hcheck] at h
      cases h
      exact .inl (decodeCheck_wrongLength.1 hcheck)
    | none =>
      have hs := (decodeCheck_eq_none_iff horder).1 hcheck
      have hne (v : Value256) : encode256 v ≠ .ok s := fun hv => by
        cases (decode256_of_encode256 horder onRange hv).symm.trans h
      exact .inr ⟨hs.1, hs.2, hne, (decode256_of_not_canonical horder onRange hs hne).symm.trans h⟩
  case given =>
    rintro (hlen | ⟨hlen, hchars, hne, hhost⟩)
    · exact hwrong hlen
    · exact (decode256_of_not_canonical horder onRange ⟨hlen, hchars⟩ hne).trans hhost

/-- A string of 43 characters with an invalid one fails the checks with what the search finds. -/
theorem decode256_of_invalid {order : List Nat} (horder : ScanOrder order) (onRange : List Char → DecodeOutcome)
    {s : List Char} (hlen : s.length = 43) (h : ∃ c ∈ s, charToDigit c = none) : ∃ p c,
    firstInvalid s order = some (p, c) ∧ decode256 order onRange s = .error (.invalidSymbol p c) := by
  cases hf : firstInvalid s order with
  | none =>
    obtain ⟨c, hc, hn⟩ := h
    exact absurd hn ((firstInvalid_eq_none_iff horder hlen).1 hf c hc)
  | some pc =>
    obtain ⟨p, c⟩ := pc
    exact ⟨p, c, rfl, decode256_of_check_error onRange (decodeCheck_invalidSymbol.2 ⟨hlen, hf⟩)⟩

/-- Settles O50: what the search finds is an invalid character at its position, in ascending order the leftmost. -/
theorem anInvalidCharacterIsReportedAtItsPosition : Obligations.AnInvalidCharacterIsReportedAtItsPosition := by
  intro order onRange s horder hlen hbad
  have hascending : ScanOrder ascendingOrder := List.Perm.refl _
  obtain ⟨p, c, hf, hdecode⟩ := decode256_of_invalid horder onRange hlen hbad
  obtain ⟨q, d, hg, hdecode'⟩ := decode256_of_invalid hascending onRange hlen hbad
  obtain ⟨-, hc, hn⟩ := firstInvalid_some hf
  obtain ⟨hq, hd, hn'⟩ := firstInvalid_some hg
  refine ⟨⟨p, c, hdecode, hc, hn⟩, q, d, hdecode', hd, hn', fun p' c' hlt => ?leftmost⟩
  case leftmost =>
    have hmem : p' ∈ ascendingOrder :=
      (mem_of_scanOrder hascending).2 (hlt.trans ((mem_of_scanOrder hascending).1 hq))
    exact firstInvalid_leftmost List.pairwise_lt_range hg p' hmem hlt c'

/-- On the fields of a value every unit reports code 0 (R122). -/
theorem LaysOut.clear {v : Value256} {s : List Char} (h : LaysOut v s) :
    contractErr (.pack (splitQuots v)) = .none ∧ contractErr (.unpack (trailerDigits s)) = .none ∧
      contractErr (.compose (splitQuot v.w0) (wordDigits s 0)) = .none ∧
      contractErr (.compose (splitQuot v.w1) (wordDigits s 1)) = .none ∧
      contractErr (.compose (splitQuot v.w2) (wordDigits s 2)) = .none ∧
      contractErr (.compose (splitQuot v.w3) (wordDigits s 3)) = .none := by
  have hpack := pack_answers_of_result State.reset h.trailer
  have hunpack := unpack_answers_of_result State.reset (packResult_eq_iff_unpackResult_eq.1 h.trailer)
  rw [← h.word0, ← h.word1, ← h.word2, ← h.word3]
  exact ⟨hpack.err_eq.symm, hunpack.err_eq.symm, contractErr_compose_split _, contractErr_compose_split _,
    contractErr_compose_split _, contractErr_compose_split _⟩

/-- Settles O48: the string decodes to the value it encodes, with every unit clear (`LaysOut.clear`), and so to no other
value; the margins are evaluated. -/
theorem decodeOfEncodeIsTheValue : Obligations.DecodeOfEncodeIsTheValue := by
  refine ⟨fun order onRange horder v => ?roundTrip, by norm_num, by norm_num, by norm_num, by norm_num⟩
  case roundTrip =>
    obtain ⟨s, hs⟩ := exists_encode256 v
    obtain ⟨-, hlays⟩ := encode256_eq_ok_iff.1 hs
    obtain ⟨hpack, hunpack, h0, h1, h2, h3⟩ := hlays.clear
    have hdecode := decode256_of_encode256 horder onRange hs
    refine ⟨s, hs, hdecode, (packErr_eq _).trans hpack, (unpackErr_eq _).trans hunpack, fun i hi => ?_,
      fun v' hv' => ?_⟩
    · rw [composeErr_eq]
      interval_cases i
      exacts [h0, h1, h2, h3]
    · cases hdecode.symm.trans hv'
      exact hs

end Sys2Proof.Machine
end

section
/-!
ENCODE256 and DECODE256 as sequences of operations on the block (`spec/30_encoding.md` R60,
`spec/45_host_alphabet_codec.md` R116, R118). A sequence leaves one sample of each operation (`runOps_answers`), and its
samples are usable exactly when no operation calls for an error (`forall_usable_iff`); for DECODE256 that is exactly on an
encoding (`exists_encode256_iff`).
-/

namespace Sys2Proof.Machine

/-! ### The samples of a sequence -/

theorem map_op_of_shows {is : List Instr} {xs : List Sample} (h : List.Forall₂ Shows is xs) :
    xs.map Sample.op = is := by
  induction h with
  | nil => rfl
  | cons hx _ ih => rw [List.map_cons, hx.1, ih]

theorem forall_usable_iff {is : List Instr} {xs : List Sample} (h : List.Forall₂ Shows is xs) :
    (∀ x ∈ xs, x.Usable) ↔ ∀ i ∈ is, contractErr i = .none := by
  induction h with
  | nil => simp
  | cons hx _ ih => rw [List.forall_mem_cons, List.forall_mem_cons, Sample.Usable, hx.err_eq, ih]

/-- A sequence that calls for no error runs with every code 0 and draws no free value. -/
theorem runOps_of_clear {is : List Instr} (h : ∀ i ∈ is, contractErr i = .none) (s : State) : ∃ t xs,
    List.Forall₂ Shows is xs ∧ runOps is s = .next t ∧ t.samples = s.samples ++ xs ∧ (∀ x ∈ xs, x.Usable) ∧
      t.draws = s.draws := by
  obtain ⟨xs, hxs, hrun⟩ := runOps_answers is s
  have hcount : is.countP unspecifiedData = 0 :=
    List.countP_eq_zero.2 fun i hi => Bool.eq_false_iff.1 (unspecifiedData_of_clear (h i hi))
  refine ⟨_, xs, hxs, hrun, rfl, (forall_usable_iff hxs).2 h, ?draws⟩
  case draws => rw [hcount, Nat.add_zero]

/-! ### ENCODE256 -/

theorem encode256Ops_clear (v : Value256) : ∀ i ∈ encode256Ops v, contractErr i = .none := by
  simp only [encode256Ops, List.forall_mem_cons, List.not_mem_nil, false_imp_iff, implies_true, and_true]
  exact ⟨rfl, rfl, rfl, rfl, (pack_delivers State.reset (splitQuots_wf v)).err_eq.symm⟩

/-- The string the host writes from samples of the five operations is the encoding (R116). -/
theorem stringOfSamples_encode256Ops {v : Value256} {xs : List Sample}
    (h : List.Forall₂ Shows (encode256Ops v) xs) : stringOfSamples xs = encode256 v := by
  rcases h with _ | ⟨h0, _ | ⟨h1, _ | ⟨h2, _ | ⟨h3, _ | ⟨hp, _ | _⟩⟩⟩⟩⟩
  have hpack : unspecifiedData (.pack (splitQuots v)) = false :=
    unspecifiedData_of_clear (encode256Ops_clear v _ (by simp [encode256Ops]))
  rw [encode256_eq, stringOfSamples]
  simp only [List.flatMap_cons, List.flatMap_nil, h0.out_eq rfl (split_answers v.w0 State.reset),
    h1.out_eq rfl (split_answers v.w1 State.reset), h2.out_eq rfl (split_answers v.w2 State.reset),
    h3.out_eq rfl (split_answers v.w3 State.reset), hp.out_eq hpack (pack_delivers State.reset (splitQuots_wf v)),
    Outputs.digits, encodeDigits, trailerOf, List.append_assoc, List.append_nil]

/-- Settles O52: none of the five operations calls for an error, and its samples hold the digits encode writes. -/
theorem theEncodeMacroRunsOnTheBlock : Obligations.TheEncodeMacroRunsOnTheBlock := by
  intro v s
  obtain ⟨t, xs, hxs, hrun, hsamples, husable, hdraws⟩ := runOps_of_clear (encode256Ops_clear v) s
  exact ⟨t, xs, hrun, hsamples, map_op_of_shows hxs, husable, hdraws, stringOfSamples_encode256Ops hxs⟩

/-! ### DECODE256 -/

/-- The COMPOSEs take the quotients UNPACK computed, whatever code it reported (R118). -/
theorem decode256Ops_of_result {s : List Char} {c : ErrCode} {q : Quots4}
    (h : unpackResult (trailerDigits s) = ⟨c, some q⟩) : decode256Ops s =
      [.unpack (trailerDigits s), .compose q.q0 (wordDigits s 0), .compose q.q1 (wordDigits s 1),
        .compose q.q2 (wordDigits s 2), .compose q.q3 (wordDigits s 3)] := by
  rw [decode256Ops, h]

theorem LaysOut.decode256Ops_clear {v : Value256} {s : List Char} (h : LaysOut v s) :
    ∀ i ∈ decode256Ops s, contractErr i = .none := by
  obtain ⟨-, hu, h0, h1, h2, h3⟩ := h.clear
  rw [decode256Ops_of_result (packResult_eq_iff_unpackResult_eq.1 h.trailer)]
  simp only [List.forall_mem_cons, List.not_mem_nil, false_imp_iff, implies_true, and_true]
  exact ⟨hu, h0, h1, h2, h3⟩

/-- Settles O53: no operation calls for an error, and each COMPOSE has a pair that SPLIT shows of its word
(`compose_split_answers`). -/
theorem theDecodeMacroRunsOnTheBlock : Obligations.TheDecodeMacroRunsOnTheBlock := by
  intro v s
  obtain ⟨cs, hcs⟩ := exists_encode256 v
  obtain ⟨-, hlays⟩ := encode256_eq_ok_iff.1 hcs
  obtain ⟨t, xs, hxs, hrun, hsamples, husable, hdraws⟩ := runOps_of_clear hlays.decode256Ops_clear s
  rw [decode256Ops_of_result (packResult_eq_iff_unpackResult_eq.1 hlays.trailer), ← hlays.word0, ← hlays.word1,
    ← hlays.word2, ← hlays.word3] at hxs
  rcases hxs with _ | ⟨hu, _ | ⟨h0, _ | ⟨h1, _ | ⟨h2, _ | ⟨h3, _ | _⟩⟩⟩⟩⟩
  refine ⟨cs, t, _, _, hcs, hrun, hsamples, husable, hdraws, ?words⟩
  have hshown {w : Word} {x : Sample} (h : Shows (.compose (splitQuot w) (splitDigits w)) x) :
      x.out = .composer w .none :=
    h.out_eq (unspecifiedData_of_clear (contractErr_compose_split w)) (compose_split_answers w State.reset)
  case words => simp only [List.map_cons, List.map_nil, hshown h0, hshown h1, hshown h2, hshown h3]

/-- A pair that calls for no error is what SPLIT shows of some word. -/
theorem exists_split_of_clear {q : QuotField} {d : Digits10} (h : contractErr (.compose q d) = .none) :
    ∃ w, splitQuot w = q ∧ splitDigits w = d :=
  ⟨_, contractErr_compose_eq_none_iff_split.1 h⟩

/-- The five codes are all 0 exactly on an encoding: the words delivered are then those of a value that the string
encodes (R121, R122). -/
theorem exists_encode256_iff {s : List Char} (hs : OverAlphabet s) :
    (∃ v, encode256 v = .ok s) ↔ ∀ i ∈ decode256Ops s, contractErr i = .none := by
  constructor
  · rintro ⟨v, hv⟩
    exact (encode256_eq_ok_iff.1 hv).2.decode256Ops_clear
  · intro h
    have hresult := unpackResult_of_wf (trailerDigits_wf hs.1 hs.2)
    rw [decode256Ops_of_result hresult] at h
    simp only [List.forall_mem_cons, List.not_mem_nil, false_imp_iff, implies_true, and_true] at h
    obtain ⟨hu, h0, h1, h2, h3⟩ := h
    rw [← contractErr_unpack_of_wf (trailerDigits_wf hs.1 hs.2), hu] at hresult
    obtain ⟨w0, hq0, hd0⟩ := exists_split_of_clear h0
    obtain ⟨w1, hq1, hd1⟩ := exists_split_of_clear h1
    obtain ⟨w2, hq2, hd2⟩ := exists_split_of_clear h2
    obtain ⟨w3, hq3, hd3⟩ := exists_split_of_clear h3
    refine ⟨⟨w0, w1, w2, w3⟩, encode256_eq_ok_iff.2 ⟨hs, hd0, hd1, hd2, hd3, ?_⟩⟩
    rw [splitQuots, hq0, hq1, hq2, hq3]
    exact packResult_eq_iff_unpackResult_eq.2 hresult

/-! ### The codes of the five operations on a string over the alphabet -/

theorem contractErr_compose_ne_eDigit {q : QuotField} {d : Digits10} (hd : d.wf = true) :
    contractErr (.compose q d) ≠ .eDigit := by
  rw [contractErr_compose_eq_firstError, Ne, firstError_eq_eDigit_iff, hd]
  decide

theorem contractErr_compose_eq_eQuot_iff {q : QuotField} {d : Digits10} (hd : d.wf = true) :
    contractErr (.compose q d) = .eQuot ↔ 22 ≤ q.toNat := by
  rw [contractErr_compose_eq_firstError, firstError_eq_eQuot_iff, hd, Bool.not_eq_true', quotOk_eq_false_iff]
  exact and_iff_right rfl

/-- On digits COMPOSE reports `E_RANGE` exactly for quotient 21 with digits above the largest remainder (R83). -/
theorem contractErr_compose_eq_eRange_iff_of_wf {q : QuotField} {d : Digits10} (hd : d.wf = true) :
    contractErr (.compose q d) = .eRange ↔ q = 21#5 ∧ 821457390474406911 < digits10Value d := by
  have hlt := pairValue_lt_iff (q := q) hd
  have hq : q = 21#5 ↔ q.toNat = 21 := BitVec.toNat_inj.symm
  rw [contractErr_compose_eq_eRange_iff, hq]
  constructor
  · rintro ⟨-, hle, hover⟩
    omega
  · rintro ⟨h21, hv⟩
    exact ⟨hd, by omega, by omega⟩

/-- UNPACK on digits reports `E_RANGE` or nothing (R103). -/
theorem contractErr_unpack_eq_eRange_iff {e : Digits3} (he : e.wf = true) :
    contractErr (.unpack e) = .eRange ↔ 234256 ≤ digits3Value e := by
  rw [contractErr_unpack_of_wf he]
  split
  · next h => exact iff_of_true rfl h
  · next h => exact iff_of_false nofun h

theorem contractErr_unpack_ne {e : Digits3} (he : e.wf = true) :
    contractErr (.unpack e) ≠ .eDigit ∧ contractErr (.unpack e) ≠ .eQuot := by
  rw [contractErr_unpack_of_wf he]
  split <;> decide

/-- Settles O54: the operands are digits, so the codes are those of the lemmas above; of the quotients UNPACK shows only
the top one can be out of range (`unpackQuots_toNat`); all codes are 0 exactly on an encoding. -/
theorem theDecodeMacroRunsOnEveryStringOverTheAlphabet :
    Obligations.TheDecodeMacroRunsOnEveryStringOverTheAlphabet := by
  intro cs s hlen hchars
  have hs : OverAlphabet cs := ⟨hlen, hchars⟩
  have he := trailerDigits_wf hlen hchars
  have hops := decode256Ops_of_result (unpackResult_of_wf he)
  have hencodes := exists_encode256_iff hs
  obtain ⟨xs, hxs, hrun⟩ := runOps_answers (decode256Ops cs) s
  rw [← forall_usable_iff hxs] at hencodes
  have hmap := map_op_of_shows hxs
  rw [hops] at hxs hmap
  rcases hxs with _ | ⟨hu, _ | ⟨h0, _ | ⟨h1, _ | ⟨h2, _ | ⟨h3, _ | _⟩⟩⟩⟩⟩
  have hwf {i : Nat} (hi : i < 4) : (wordDigits cs i).wf = true := wordDigits_wf hs hi
  have hle := digits3Value_le_of_wf he
  obtain ⟨hq3, hq2, hq1, hq0⟩ := unpackQuots_toNat hle
  obtain ⟨hudigit, huquot⟩ := contractErr_unpack_ne he
  refine ⟨_, _, _, _, _, _, unpackQuots (digits3Value (trailerDigits cs)), hrun, rfl, hmap, ?shown, ?noDigit, ?noQuot,
    ?range, ?quot, ?range0, ?range1, ?range2, ?range3, hencodes.symm⟩
  case shown =>
    obtain ⟨-, s', n, ha⟩ := hu
    rw [(answers_unique ha (unpack_shows s' he)).1]
    rfl
  case noDigit =>
    simp only [List.forall_mem_cons, List.not_mem_nil, false_imp_iff, implies_true, and_true, hu.err_eq, h0.err_eq,
      h1.err_eq, h2.err_eq, h3.err_eq]
    exact ⟨hudigit, contractErr_compose_ne_eDigit (hwf (by decide)), contractErr_compose_ne_eDigit (hwf (by decide)),
      contractErr_compose_ne_eDigit (hwf (by decide)), contractErr_compose_ne_eDigit (hwf (by decide))⟩
  case noQuot =>
    simp only [List.forall_mem_cons, List.not_mem_nil, false_imp_iff, implies_true, and_true, hu.err_eq, h0.err_eq,
      h1.err_eq, h2.err_eq, Ne, contractErr_compose_eq_eQuot_iff (hwf (show 0 < 4 by decide)),
      contractErr_compose_eq_eQuot_iff (hwf (show 1 < 4 by decide)),
      contractErr_compose_eq_eQuot_iff (hwf (show 2 < 4 by decide)), hq0, hq1, hq2]
    exact ⟨huquot, by omega, by omega, by omega⟩
  case range => rw [hu.err_eq, contractErr_unpack_eq_eRange_iff he]
  case quot =>
    rw [h3.err_eq, contractErr_compose_eq_eQuot_iff (hwf (by decide)), hq3]
    omega
  case range0 => rw [h0.err_eq, contractErr_compose_eq_eRange_iff_of_wf (hwf (by decide))]
  case range1 => rw [h1.err_eq, contractErr_compose_eq_eRange_iff_of_wf (hwf (by decide))]
  case range2 => rw [h2.err_eq, contractErr_compose_eq_eRange_iff_of_wf (hwf (by decide))]
  case range3 => rw [h3.err_eq, contractErr_compose_eq_eRange_iff_of_wf (hwf (by decide))]

end Sys2Proof.Machine
end
